-- ==== Sys2Proof/Word.lean ====
section
/-! DEFINITION. The plain words of the go-shamir GF(256) core: bytes, command words, register and slot numbers (R6, R24, R25, R71). -/

namespace Sys2Proof

/-- A byte: a field element, the content of an element register, a buffer byte (R6, R24). -/
abbrev Byte := BitVec 8

/-- A command word `cmd` (R70). -/
abbrev CmdWord := BitVec 64

/-- A control register, and the value an error records (R27, R29). -/
abbrev Word32 := BitVec 32

/-- The number of an element register `e0` .. `e15` (R24). -/
abbrev Reg := Fin 16

/-- The number of a buffer slot `B[0]` .. `B[255]` (R25). -/
abbrev Slot := Fin 256

end Sys2Proof
end

