-- ==== Sys2Proof/Syntax.lean ====
section
/-! DEFINITION. The 18 commands of `spec/opcode_table.json`, one constructor each, with their operands in the order of R79 (R72). -/

namespace Sys2Proof

/-- A command (R72). `ed` is a destination register, `ea`, `eb`, `ex`, `es` source registers, `bd` a
destination slot, `ba`, `bb` source slots; counts, offsets and lengths are plain numbers (R74). -/
inductive Instr where
  | gfadd (ed ea eb : Reg)
  | gfmul (ed ea eb : Reg)
  | gfdiv (ed ea eb : Reg)
  | gfinv (ed ea : Reg)
  | gfexp (ed ea : Reg)
  | gflog (ed ea : Reg)
  | vadd (bd ba bb : Slot)
  | vmul (bd ba : Slot) (ex : Reg)
  | vzero (bd : Slot)
  | peval (ed : Reg) (ba : Slot) (ex : Reg)
  | pevalv (bd ba : Slot) (ex : Reg) (k : Nat)
  | pshare (bd ba : Slot) (ex : Reg) (k : Nat)
  | lagr0 (ed : Reg) (ba bb : Slot)
  | combine (bd ba : Slot) (k : Nat)
  | ldi (ed : Reg) (imm : Byte)
  | ldb (ed : Reg) (ba : Slot) (off : Nat)
  | stb (es : Reg) (ba : Slot) (off : Nat)
  | setlen (ba : Slot) (len : Nat)
  deriving DecidableEq, Repr

end Sys2Proof
end

