-- ==== Sys2Proof/WellFormed.lean ====
section
/-! DEFINITION. Which commands have an encoding: register and slot numbers are in range by their types (R73); a number must fit the 32-bit field `n` (R71, R74). -/

namespace Sys2Proof

/-- A number that the field `n` can hold (R71, R74). -/
def fitsN (k : Nat) : Bool := decide (k < 2 ^ 32)

/-- The command has an encoding. -/
def Instr.wellFormed : Instr → Bool
  | .gfadd _ _ _ => true
  | .gfmul _ _ _ => true
  | .gfdiv _ _ _ => true
  | .gfinv _ _ => true
  | .gfexp _ _ => true
  | .gflog _ _ => true
  | .vadd _ _ _ => true
  | .vmul _ _ _ => true
  | .vzero _ => true
  | .peval _ _ _ => true
  | .pevalv _ _ _ k => fitsN k
  | .pshare _ _ _ k => fitsN k
  | .lagr0 _ _ _ => true
  | .combine _ _ k => fitsN k
  | .ldi _ _ => true
  | .ldb _ _ off => fitsN off
  | .stb _ _ off => fitsN off
  | .setlen _ len => fitsN len

end Sys2Proof
end

