-- ==== Sys2Proof/Decode.lean ====
section
/-! DEFINITION. Decoding and encoding of command words (R70 to R81), the written form (R79), and the opcode table's masks and matches (R75). -/

namespace Sys2Proof

/-! ### The layout -/

/-- The five fields of a command word (R71). -/
structure Fields where
  op : Byte
  a : Byte
  b : Byte
  c : Byte
  n : Word32
  deriving DecidableEq, Repr

/-- `op = w[63:56]`, `a = w[55:48]`, `b = w[47:40]`, `c = w[39:32]`, `n = w[31:0]` (R71). -/
def fieldsOf (w : CmdWord) : Fields where
  op := w.extractLsb' 56 8
  a := w.extractLsb' 48 8
  b := w.extractLsb' 40 8
  c := w.extractLsb' 32 8
  n := w.extractLsb' 0 32

/-- The word with these fields (R71). -/
def packFields (f : Fields) : CmdWord :=
  ((((f.op ++ f.a : BitVec 16) ++ f.b : BitVec 24) ++ f.c : BitVec 32) ++ f.n : BitVec 64)

/-! ### Decoding -/

/-- Why a word is illegal (R76). -/
inductive Illegal where
  /-- `op` is none of the 18 opcodes. -/
  | unassignedOpcode
  /-- A register field holds 16 or more. -/
  | registerOutOfRange
  /-- A field `a`, `b` or `c` that must be zero is not. -/
  | fieldNotZero
  /-- `n` must be zero and is not. -/
  | numberNotZero
  /-- LDI with `n[31:8]` nonzero. -/
  | immediateTooWide
  deriving DecidableEq, Repr

/-- A field used as a register operand (R73). -/
def regField (f : Byte) : Except Illegal Reg :=
  if h : f.toNat < 16 then .ok ⟨f.toNat, h⟩ else .error .registerOutOfRange

/-- A field used as a slot operand: all 256 values are legal (R73). -/
def slotField (f : Byte) : Slot := ⟨f.toNat, f.isLt⟩

/-- A field the command does not use (R73). -/
def zeroField (f : Byte) : Except Illegal Unit :=
  if f = 0 then .ok () else .error .fieldNotZero

/-- `n` where the command does not use it (R73). -/
def zeroNumber (n : Word32) : Except Illegal Unit :=
  if n = 0 then .ok () else .error .numberNotZero

/-- The immediate byte of LDI (R74). -/
def immField (n : Word32) : Except Illegal Byte :=
  if n.toNat < 256 then .ok (n.setWidth 8) else .error .immediateTooWide

/-- The command the fields name (R81, with the rows of R72): first the opcode, then the register fields,
then the fields that must be zero, then `n`. -/
def decodeFields (f : Fields) : Except Illegal Instr :=
  match f.op.toNat with
  | 0x10 => do
    let d ← regField f.a; let a ← regField f.b; let b ← regField f.c
    zeroNumber f.n; pure (.gfadd d a b)
  | 0x11 => do
    let d ← regField f.a; let a ← regField f.b; let b ← regField f.c
    zeroNumber f.n; pure (.gfmul d a b)
  | 0x12 => do
    let d ← regField f.a; let a ← regField f.b; let b ← regField f.c
    zeroNumber f.n; pure (.gfdiv d a b)
  | 0x13 => do
    let d ← regField f.a; let a ← regField f.b
    zeroField f.c; zeroNumber f.n; pure (.gfinv d a)
  | 0x14 => do
    let d ← regField f.a; let a ← regField f.b
    zeroField f.c; zeroNumber f.n; pure (.gfexp d a)
  | 0x15 => do
    let d ← regField f.a; let a ← regField f.b
    zeroField f.c; zeroNumber f.n; pure (.gflog d a)
  | 0x20 => do
    zeroNumber f.n; pure (.vadd (slotField f.a) (slotField f.b) (slotField f.c))
  | 0x21 => do
    let x ← regField f.c
    zeroNumber f.n; pure (.vmul (slotField f.a) (slotField f.b) x)
  | 0x22 => do
    zeroField f.b; zeroField f.c; zeroNumber f.n; pure (.vzero (slotField f.a))
  | 0x30 => do
    let d ← regField f.a; let x ← regField f.c
    zeroNumber f.n; pure (.peval d (slotField f.b) x)
  | 0x31 => do
    let x ← regField f.c
    pure (.pevalv (slotField f.a) (slotField f.b) x f.n.toNat)
  | 0x32 => do
    let x ← regField f.c
    pure (.pshare (slotField f.a) (slotField f.b) x f.n.toNat)
  | 0x40 => do
    let d ← regField f.a
    zeroNumber f.n; pure (.lagr0 d (slotField f.b) (slotField f.c))
  | 0x41 => do
    zeroField f.c; pure (.combine (slotField f.a) (slotField f.b) f.n.toNat)
  | 0x50 => do
    let d ← regField f.a
    zeroField f.b; zeroField f.c
    let v ← immField f.n
    pure (.ldi d v)
  | 0x51 => do
    let d ← regField f.a
    zeroField f.c; pure (.ldb d (slotField f.b) f.n.toNat)
  | 0x52 => do
    let r ← regField f.a
    zeroField f.c; pure (.stb r (slotField f.b) f.n.toNat)
  | 0x53 => do
    zeroField f.a; zeroField f.c; pure (.setlen (slotField f.b) f.n.toNat)
  | _ => .error .unassignedOpcode

/-- `decode(w)`, total on 64-bit words and using no state (R81). -/
def decode (w : CmdWord) : Except Illegal Instr := decodeFields (fieldsOf w)

/-- The instruction the decoder reads from a table word: bit 0 is the least significant bit of the one
64-bit word (R71); bits at `nbits` and above count as 0. A number that is no 64-bit word has no meaning. -/
def decodeTableWord (nbits w : Nat) : Option Instr :=
  let v := w % 2 ^ nbits
  if v < 2 ^ 64 then (decode (BitVec.ofNat 64 v)).toOption else none

/-! ### Encoding -/

/-- The 8-bit field of a register operand (R73). -/
def regByte (r : Reg) : Byte := BitVec.ofNat 8 r.val

/-- The 8-bit field of a slot operand (R73). -/
def slotByte (b : Slot) : Byte := BitVec.ofNat 8 b.val

/-- The field `n` of a count, offset or length (R74). -/
def numWord (k : Nat) : Word32 := BitVec.ofNat 32 k

/-- The fields of each command, row by row of R72. -/
def encodeFields : Instr → Fields
  | .gfadd d a b => ⟨0x10, regByte d, regByte a, regByte b, 0⟩
  | .gfmul d a b => ⟨0x11, regByte d, regByte a, regByte b, 0⟩
  | .gfdiv d a b => ⟨0x12, regByte d, regByte a, regByte b, 0⟩
  | .gfinv d a => ⟨0x13, regByte d, regByte a, 0, 0⟩
  | .gfexp d a => ⟨0x14, regByte d, regByte a, 0, 0⟩
  | .gflog d a => ⟨0x15, regByte d, regByte a, 0, 0⟩
  | .vadd d a b => ⟨0x20, slotByte d, slotByte a, slotByte b, 0⟩
  | .vmul d a x => ⟨0x21, slotByte d, slotByte a, regByte x, 0⟩
  | .vzero d => ⟨0x22, slotByte d, 0, 0, 0⟩
  | .peval d a x => ⟨0x30, regByte d, slotByte a, regByte x, 0⟩
  | .pevalv d a x k => ⟨0x31, slotByte d, slotByte a, regByte x, numWord k⟩
  | .pshare d a x k => ⟨0x32, slotByte d, slotByte a, regByte x, numWord k⟩
  | .lagr0 d a b => ⟨0x40, regByte d, slotByte a, slotByte b, 0⟩
  | .combine d a k => ⟨0x41, slotByte d, slotByte a, 0, numWord k⟩
  | .ldi d v => ⟨0x50, regByte d, 0, 0, v.setWidth 32⟩
  | .ldb d a off => ⟨0x51, regByte d, slotByte a, 0, numWord off⟩
  | .stb r a off => ⟨0x52, regByte r, slotByte a, 0, numWord off⟩
  | .setlen a len => ⟨0x53, 0, slotByte a, 0, numWord len⟩

/-- The command word of a command (R71, R72). -/
def encode (i : Instr) : CmdWord := packFields (encodeFields i)

/-! ### The opcode table and the written form -/

/-- One row of `opcode_table.json`: the bits a word must have fixed and their values (R75). -/
structure OpRow where
  mnemonic : String
  mask : CmdWord
  pattern : CmdWord
  deriving DecidableEq, Repr

/-- A word is this row's command exactly when `w AND mask = match` (R75). -/
def OpRow.covers (r : OpRow) (w : CmdWord) : Bool := w &&& r.mask == r.pattern

/-- The row of a command in `opcode_table.json` (R75). -/
def Instr.row : Instr → OpRow
  | .gfadd _ _ _ => ⟨"GFADD", 0xFFF0F0F0FFFFFFFF, 0x1000000000000000⟩
  | .gfmul _ _ _ => ⟨"GFMUL", 0xFFF0F0F0FFFFFFFF, 0x1100000000000000⟩
  | .gfdiv _ _ _ => ⟨"GFDIV", 0xFFF0F0F0FFFFFFFF, 0x1200000000000000⟩
  | .gfinv _ _ => ⟨"GFINV", 0xFFF0F0FFFFFFFFFF, 0x1300000000000000⟩
  | .gfexp _ _ => ⟨"GFEXP", 0xFFF0F0FFFFFFFFFF, 0x1400000000000000⟩
  | .gflog _ _ => ⟨"GFLOG", 0xFFF0F0FFFFFFFFFF, 0x1500000000000000⟩
  | .vadd _ _ _ => ⟨"VADD", 0xFF000000FFFFFFFF, 0x2000000000000000⟩
  | .vmul _ _ _ => ⟨"VMUL", 0xFF0000F0FFFFFFFF, 0x2100000000000000⟩
  | .vzero _ => ⟨"VZERO", 0xFF00FFFFFFFFFFFF, 0x2200000000000000⟩
  | .peval _ _ _ => ⟨"PEVAL", 0xFFF000F0FFFFFFFF, 0x3000000000000000⟩
  | .pevalv _ _ _ _ => ⟨"PEVALV", 0xFF0000F000000000, 0x3100000000000000⟩
  | .pshare _ _ _ _ => ⟨"PSHARE", 0xFF0000F000000000, 0x3200000000000000⟩
  | .lagr0 _ _ _ => ⟨"LAGR0", 0xFFF00000FFFFFFFF, 0x4000000000000000⟩
  | .combine _ _ _ => ⟨"COMBINE", 0xFF0000FF00000000, 0x4100000000000000⟩
  | .ldi _ _ => ⟨"LDI", 0xFFF0FFFFFFFFFF00, 0x5000000000000000⟩
  | .ldb _ _ _ => ⟨"LDB", 0xFFF000FF00000000, 0x5100000000000000⟩
  | .stb _ _ _ => ⟨"STB", 0xFFF000FF00000000, 0x5200000000000000⟩
  | .setlen _ _ => ⟨"SETLEN", 0xFFFF00FF00000000, 0x5300000000000000⟩

/-- The whole opcode table, in its order (R72, R75). -/
def opcodeTable : List OpRow :=
  [Instr.row (.gfadd 0 0 0), Instr.row (.gfmul 0 0 0), Instr.row (.gfdiv 0 0 0), Instr.row (.gfinv 0 0),
    Instr.row (.gfexp 0 0), Instr.row (.gflog 0 0)] ++
  [Instr.row (.vadd 0 0 0), Instr.row (.vmul 0 0 0), Instr.row (.vzero 0)] ++
  [Instr.row (.peval 0 0 0), Instr.row (.pevalv 0 0 0 0), Instr.row (.pshare 0 0 0 0)] ++
  [Instr.row (.lagr0 0 0 0), Instr.row (.combine 0 0 0)] ++
  [Instr.row (.ldi 0 0), Instr.row (.ldb 0 0 0), Instr.row (.stb 0 0 0), Instr.row (.setlen 0 0)]

/-- A register in the written form (R79). -/
def Reg.written (r : Reg) : String := "e" ++ toString r.val

/-- A slot in the written form (R79). -/
def Slot.written (b : Slot) : String := "b" ++ toString b.val

/-- The written form of a command: the mnemonic, then the operands in the order of the fields, numbers in
decimal (R79). -/
def Instr.written (i : Instr) : String :=
  let operands : List String := match i with
    | .gfadd d a b => [Reg.written d, Reg.written a, Reg.written b]
    | .gfmul d a b => [Reg.written d, Reg.written a, Reg.written b]
    | .gfdiv d a b => [Reg.written d, Reg.written a, Reg.written b]
    | .gfinv d a => [Reg.written d, Reg.written a]
    | .gfexp d a => [Reg.written d, Reg.written a]
    | .gflog d a => [Reg.written d, Reg.written a]
    | .vadd d a b => [Slot.written d, Slot.written a, Slot.written b]
    | .vmul d a x => [Slot.written d, Slot.written a, Reg.written x]
    | .vzero d => [Slot.written d]
    | .peval d a x => [Reg.written d, Slot.written a, Reg.written x]
    | .pevalv d a x k => [Slot.written d, Slot.written a, Reg.written x, toString k]
    | .pshare d a x k => [Slot.written d, Slot.written a, Reg.written x, toString k]
    | .lagr0 d a b => [Reg.written d, Slot.written a, Slot.written b]
    | .combine d a k => [Slot.written d, Slot.written a, toString k]
    | .ldi d v => [Reg.written d, toString v.toNat]
    | .ldb d a off => [Reg.written d, Slot.written a, toString off]
    | .stb r a off => [Reg.written r, Slot.written a, toString off]
    | .setlen a len => [Slot.written a, toString len]
  i.row.mnemonic ++ " " ++ ", ".intercalate operands

end Sys2Proof
end

