-- ==== Sys2Proof/Config.lean ====
section
/-! DEFINITION. What one engine fixes and what the spec leaves open: `MAXLEN` (R5), the tables before they are built (R35), the order of two agents (R57, R222) and the host's checksum (R175). Every open value is a constant with no body, so no proof can see it. -/

namespace Sys2Proof.Config

/-- `POLY`, the reduction constant x^8+x^4+x^3+x^2+1 (R5, conflict C1). -/
def poly : Nat := 0x11D

/-- `ORDER`, the modulus of logarithm arithmetic (R5). -/
def order : Nat := 255

/-- A 32-bit number with no body, from which `MAXLEN` is taken (R5; log 1). -/
opaque maxLenFree : Word32

/-- `MAXLEN`, the OPEN capacity of a slot: 2 <= MAXLEN <= 2^32 - 1 (R5; log 1). Every legal number is a
possible value. The two numbers below 2, which no engine has, are sent to a legal one. -/
def maxLen : Word32 := if maxLenFree.toNat < 2 then 2048 else maxLenFree

/-- `EXP[i]` after the `n`-th reset and before the initialiser's step: unspecified (R35, U5; log 3). -/
opaque unbuiltExp : Nat → Nat → Byte

/-- `LOG[i]` after the `n`-th reset and before the initialiser's step: unspecified (R35, U5; log 3). -/
opaque unbuiltLog : Nat → Nat → Byte

/-- Whether the initialiser moves before a host port action that also waits while `READY = 0` (R57,
R222; log 7). The spec gives the two agents no order. -/
opaque initialiserFirst : Nat → Bool

/-- `CRC32`, the function parameter of the host's integrity layer (R175; log 18). -/
opaque crc32 : List Byte → Word32

end Sys2Proof.Config
end

