-- ==== Sys2Proof/Machine/State.lean ====
section
/-! DEFINITION. The state of one engine with its host (R20 to R36), why a step can stop, and the state after reset (R35). -/

namespace Sys2Proof.Machine

/-- The field tables `EXP[0..255]` and `LOG[0..255]` (R20). -/
structure Tables where
  exp : Vector Byte 256
  log : Vector Byte 256
  deriving DecidableEq, Repr

/-- The tables after the `n`-th reset and before the initialiser's step: unspecified (R35, U5; log 3). -/
def Tables.unbuilt (n : Nat) : Tables where
  exp := Vector.ofFn fun i => Config.unbuiltExp n i.val
  log := Vector.ofFn fun i => Config.unbuiltLog n i.val

/-- One array of the interpolator's scratch, `XS` or `YS` (R32). -/
abbrev Scratch := Vector Byte 256

/-- An array of scratch with every entry zero (R32). -/
def Scratch.clear : Scratch := Vector.replicate 256 0

/-- The bytes `B[s].data[i]`, as cells of key and byte: keys strictly rising, and no cell holds the byte an
unlisted key reads as (R25; log 4). -/
abbrev Memory := List Host.Cell

/-- What the host can do at the port beside issuing a word (R57). -/
inductive PortAction where
  /-- `HostWriteBuf(s, q)`. -/
  | writeBuf (b : Slot) (q : List Byte)
  /-- `HostReadBuf(s)`. -/
  | readBuf (b : Slot)
  /-- `HostReadReg(i)`. -/
  | readReg (r : Reg)
  /-- `HostReadCSR(k)`, for every number (R27). -/
  | readCsr (k : Nat)
  /-- `HostReset`. -/
  | reset
  deriving DecidableEq, Repr

/-- What the host can do (R57). -/
inductive HostAction where
  /-- `HostIssue(w)`. -/
  | issue (w : CmdWord)
  /-- One of the other five actions. -/
  | port (act : PortAction)
  deriving DecidableEq, Repr

/-- The result the host port hands back (R57). -/
inductive HostResult where
  /-- The pair (`B[s].len`, `Buf(s)`). -/
  | buf (len : Nat) (q : List Byte)
  /-- An element register. -/
  | reg (v : Byte)
  /-- A control register. -/
  | csr (v : Word32)
  deriving DecidableEq, Repr

/-- Why the machine stops with a fault. -/
inductive Fault where
  /-- `FATAL = 1` and the host has no further move: the run is over and has gone wrong (R194, R198, R226).
  Raised by the step alone. Safe: the spec calls this state a fault that is never final (log 10). -/
  | fatalStop
  deriving DecidableEq, Repr

/-- Why the model gives no step. -/
inductive Refusal where
  /-- A command without a meaning yet: raised by no arm of this model. Safe. -/
  | notModelled (mnemonic : String)
  /-- The host's list holds a `HostWriteBuf` longer than `MAXLEN`, which the port does not offer (R57, U19).
  Raised by the step alone. Safe: the spec gives the host no such move (log 12). -/
  | noSuchHostMove
  deriving DecidableEq, Repr

/-- The state: everything R20 to R36 give the engine, and the moves the host has still to make. -/
structure State where
  /-- `EXP` and `LOG` (R20). -/
  tables : Tables
  /-- `e0` .. `e15` (R24). -/
  regs : Vector Byte 16
  /-- `B[s].len` (R25). -/
  lens : Vector Nat 256
  /-- `B[s].data[i]` (R25, R26). -/
  mem : Memory
  /-- `STATUS.READY` (R28). -/
  ready : Bool
  /-- `STATUS.FATAL` (R28). -/
  fatal : Bool
  /-- `STATUS.ESTICKY` (R28). -/
  esticky : Bool
  /-- `STATUS.ERRCODE` (R28). -/
  errcode : Byte
  /-- `ERRINFO` (R29). -/
  errinfo : Word32
  /-- `MAXLEN`, the constant control register (R30; log 2). -/
  maxLen : Word32
  /-- `XS`, hidden (R32). -/
  xs : Scratch
  /-- `YS`, hidden (R32). -/
  ys : Scratch
  /-- The index of the command in the run's sequence (R36). -/
  pc : Nat
  /-- The host's moves still to come, first one first: `CMDS` with the port actions between the commands
  (R33, R57, R226; log 6). -/
  host : List HostAction
  /-- The model's own counter of free values (log 7). -/
  freeCount : Nat
  deriving DecidableEq, Repr

/-- The machine right after reset, before the initialiser's step (R35, middle column). -/
def State.reset : State where
  tables := Tables.unbuilt 0
  regs := Vector.replicate 16 0
  lens := Vector.replicate 256 0
  mem := []
  ready := false
  fatal := false
  esticky := false
  errcode := 0
  errinfo := 0
  maxLen := Config.maxLen
  xs := Scratch.clear
  ys := Scratch.clear
  pc := 0
  host := []
  freeCount := 1

end Sys2Proof.Machine
end

