-- ==== Sys2Proof/Machine/Flags.lean ====
section
/-! DEFINITION. The errors and their codes (R190, R191) and the control registers as the host reads them (R27 to R30). The engine has no arithmetic flags (R28). -/

namespace Sys2Proof.Machine

/-- Every error the engine raises (R191). -/
inductive Err where
  /-- `ERR_ILLEGAL`: the word is illegal. -/
  | illegal
  /-- `ERR_RANGE`: a number is out of range. -/
  | range
  /-- `ERR_ALIAS`: the destination slot is one of the source slots. -/
  | aliased
  /-- `ERR_LENMISMATCH`: buffers that must have equal lengths do not. -/
  | lenMismatch
  /-- `ERR_TOOFEW`: fewer than 2 shares or pairs. -/
  | tooFew
  /-- `ERR_SHORT`: a share shorter than 2 bytes. -/
  | short
  /-- `ERR_DUPX`: two equal x-coordinates. -/
  | dupX
  /-- `ERR_ZEROX`: the x-coordinate register holds 0x00. -/
  | zeroX
  /-- `FATAL_DIVZERO`: denominator 0x00. -/
  | divZero
  /-- `FATAL_INVZERO`: operand 0x00. -/
  | invZero
  deriving DecidableEq, Repr

/-- The code of each error (R191). -/
def Err.code : Err → Byte
  | .illegal => 0x01
  | .range => 0x02
  | .aliased => 0x03
  | .lenMismatch => 0x04
  | .tooFew => 0x05
  | .short => 0x06
  | .dupX => 0x07
  | .zeroX => 0x08
  | .divZero => 0x80
  | .invZero => 0x81

/-- The class of a code: 0x80 and above is fatal (R190). -/
def isFatalCode (code : Byte) : Bool := decide (0x80 ≤ code.toNat)

/-- Bit `i` of a 32-bit word, set when `b` (R28). -/
def bitAt (b : Bool) (i : Nat) : Word32 := if b then 1 <<< i else 0

/-- `STATUS`, control register 0: `READY` bit 0, `FATAL` bit 1, `ESTICKY` bit 2, `ERRCODE` bits 15:8, the
others read as 0 (R28). -/
def State.statusWord (s : State) : Word32 :=
  bitAt s.ready 0 ||| bitAt s.fatal 1 ||| bitAt s.esticky 2 ||| (s.errcode.setWidth 32 <<< 8)

/-- A control register as the host reads it; a number above 2 reads as 0 (R27). -/
def State.csr (s : State) (k : Nat) : Word32 :=
  match k with
  | 0 => s.statusWord
  | 1 => s.errinfo
  | 2 => s.maxLen
  | _ => 0

end Sys2Proof.Machine
end

