-- ==== Sys2Proof/Machine/Ops.lean ====
section
/-! DEFINITION. The named operations over registers, slots and status that every meaning uses (R7, R24, R25), and the end of a command, with or without an error, as one shared operation (R192, R193). -/

namespace Sys2Proof.Machine

/-- What one step or one command answers. -/
abbrev Result := Host.Outcome State Fault Refusal

/-! ### Element registers -/

/-- `e[i]` (R7, R24). -/
def State.e (s : State) (i : Reg) : Byte := s.regs.get i

/-- `e[i] <- v` (R7, R24). -/
def State.setE (s : State) (i : Reg) (v : Byte) : State := { s with regs := s.regs.set i.val v i.isLt }

/-! ### The bytes of the slots -/

/-- What a byte reads as that nothing has written since reset (R35; log 4). -/
def Memory.unlisted : Byte := 0x00

/-- The key of the byte at `(slot, offset)`: no two bytes of the buffer space share one (R50; log 4). -/
def cellKey (b : Slot) (off : Nat) : Nat := off * 256 + b.val

/-- The byte a key reads as. -/
def Memory.read : Memory → Nat → Byte
  | [], _ => Memory.unlisted
  | c :: rest, k => if c.1 = k then c.2 else Memory.read rest k

/-- The cells with one more in front, unless the byte is what an unlisted key reads as. -/
def Memory.cons (k : Nat) (v : Byte) (m : Memory) : Memory := if v = Memory.unlisted then m else (k, v) :: m

/-- Put a byte at its place among the keys. -/
def Memory.insert : Memory → Nat → Byte → Memory
  | [], k, v => Memory.cons k v []
  | c :: rest, k, v => if c.1 < k then c :: Memory.insert rest k v else Memory.cons k v (c :: rest)

/-- Write one byte, keeping the canonical form. -/
def Memory.write (m : Memory) (k : Nat) (v : Byte) : Memory := Memory.insert (m.filter fun c => c.1 != k) k v

/-- Write the bytes `q` to slot `b` from offset `off` on. -/
def Memory.writeFrom (m : Memory) (b : Slot) : Nat → List Byte → Memory
  | _, [] => m
  | off, v :: q => Memory.writeFrom (m.write (cellKey b off) v) b (off + 1) q

/-- Write 0x00 to the bytes of slot `b` at offsets `lo` .. `hi - 1`. -/
def Memory.zeroRange (m : Memory) (b : Slot) (lo hi : Nat) : Memory :=
  m.filter fun c => !(c.1 % 256 == b.val && decide (lo ≤ c.1 / 256) && decide (c.1 / 256 < hi))

/-- The canonical form: keys strictly rising, no cell holding the byte an unlisted key reads as (log 4). -/
abbrev Memory.wf (m : Memory) : Prop :=
  m.Pairwise (fun c d => c.1 < d.1) ∧ ∀ c ∈ m, c.2 ≠ Memory.unlisted

/-! ### Slots -/

/-- `B[b].len` (R7, R25). -/
def State.len (s : State) (b : Slot) : Nat := s.lens.get b

/-- `B[b].len <- n` (R7, R25). -/
def State.setLen (s : State) (b : Slot) (n : Nat) : State := { s with lens := s.lens.set b.val n b.isLt }

/-- `B[b].data[i]` (R7, R25). -/
def State.byte (s : State) (b : Slot) (i : Nat) : Byte := s.mem.read (cellKey b i)

/-- `B[b].data[i] <- v` (R7, R25). -/
def State.setByte (s : State) (b : Slot) (i : Nat) (v : Byte) : State :=
  { s with mem := s.mem.write (cellKey b i) v }

/-- `B[b].data[i] <- 0x00` for `i` in `lo` .. `hi - 1`. -/
def State.zeroBytes (s : State) (b : Slot) (lo hi : Nat) : State := { s with mem := s.mem.zeroRange b lo hi }

/-- `Buf(b)` (R7). -/
def State.buf (s : State) (b : Slot) : List Byte := (List.range (s.len b)).map (s.byte b)

/-- `SetBuf(b, q)`: the length, the bytes, and zeros behind them up to `MAXLEN` (R7). -/
def State.setBuf (s : State) (b : Slot) (q : List Byte) : State :=
  let t := (s.setLen b q.length).zeroBytes b q.length s.maxLen.toNat
  { t with mem := t.mem.writeFrom b 0 q }

/-! ### The end of a command -/

/-- `complete(code, info)` (R192): the status fields; `pc` advances unless the code is fatal. -/
def State.complete (s : State) (code : Byte) (info : Word32) : State :=
  { s with
    errcode := code
    errinfo := info
    esticky := s.esticky || code != 0
    fatal := s.fatal || isFatalCode code
    pc := if isFatalCode code then s.pc else s.pc + 1 }

/-- The command ends without error (R192). -/
def State.finish (s : State) : Result := .next (s.complete 0x00 0)

/-- `raise E(info)`: the command ends with the error and no other effect (R7, R192, R193). A fatal error is
a next state too: it leaves `FATAL = 1` to be read (R194). -/
def State.raise (s : State) (err : Err) (info : Word32) : Result := .next (s.complete err.code info)

/-- Make the checks; at the first that fails raise its error, else perform the effect and finish (R192). -/
def State.checked (s : State) (check : Option (Err × Word32)) (effect : State → State) : Result :=
  match check with
  | some (err, info) => s.raise err info
  | none => (effect s).finish

/-! ### Reset -/

/-- `HostReset`: every field of R35's table at its reset value (R220). `MAXLEN` is a constant of the engine
(R30), the tables are unspecified again, and the host goes on with its own moves (log 11). -/
def State.hostReset (s : State) : State :=
  { State.reset with
    tables := Tables.unbuilt s.freeCount
    maxLen := s.maxLen
    host := s.host
    freeCount := s.freeCount + 1 }

end Sys2Proof.Machine
end

