-- ==== Sys2Proof/Machine/GField.lean ====
section
/-! DEFINITION. The pure functions of the core: field arithmetic (R90 to R95), Horner evaluation (R120, R121) and Lagrange interpolation at 0 (R135). They read the field tables and nothing else. -/

namespace Sys2Proof.Machine

/-- `EXP[i mod 255]`: the read with a reduced index (R91, R95). -/
def Tables.expMod (t : Tables) (i : Nat) : Byte :=
  t.exp[i % Config.order]'(Nat.lt_trans (Nat.mod_lt _ (by decide)) (by decide))

/-- `EXP[v]` (R7, R100). -/
def Tables.expAt (t : Tables) (v : Byte) : Byte := t.exp[v.toNat]'v.isLt

/-- `LOG[v]` (R7, R101). -/
def Tables.logAt (t : Tables) (v : Byte) : Byte := t.log[v.toNat]'v.isLt

/-- `gf_add(a, b)` (R90). -/
def gfAdd (a b : Byte) : Byte := a ^^^ b

/-- `gf_mul(a, b)` (R91). -/
def gfMul (t : Tables) (a b : Byte) : Byte :=
  if a = 0 ∨ b = 0 then 0x00 else t.expMod ((t.logAt a).toNat + (t.logAt b).toNat)

/-- `gf_div(a, b)`, partial: it takes a proof that `b` is nonzero (R92; log 14). -/
def gfDiv (t : Tables) (a b : Byte) (_hb : b ≠ 0) : Byte :=
  if a = 0 then 0x00 else t.expMod ((t.logAt a).toNat + 255 - (t.logAt b).toNat)

/-- `gf_inv(a)`, partial: it takes a proof that `a` is nonzero (R93; log 14). -/
def gfInv (t : Tables) (a : Byte) (_ha : a ≠ 0) : Byte := t.expMod (255 - (t.logAt a).toNat)

/-- `horner(q, x)`: from the highest coefficient down; no coefficients give 0 (R120). -/
def horner (t : Tables) (q : List Byte) (x : Byte) : Byte :=
  match q.reverse with
  | [] => 0x00
  | top :: lower => lower.foldl (fun r c => gfAdd (gfMul t r x) c) top

/-- `horner_vec(Q, x)` for the buffers `top = Q[k-1]` and `lower = Q[k-2], .., Q[0]` (R121): there is always
a buffer to seed from. -/
def hornerVec (t : Tables) (top : List Byte) (lower : List (List Byte)) (x : Byte) : List Byte :=
  lower.foldl (fun d q => d.zipWith (fun r c => gfAdd (gfMul t r x) c) q) top

/-- One factor of a basis value: `xj / (xi + xj)`, skipped when the denominator is zero (R135). -/
def basisFactor (t : Tables) (xi xj acc : Byte) : Byte :=
  if h : gfAdd xi xj = 0 then acc else gfMul t acc (gfDiv t xj (gfAdd xi xj) h)

/-- The basis value of pair `i` at x = 0 (R135). -/
def basisAt (t : Tables) (xs : List Byte) (i : Nat) : Byte :=
  (List.range xs.length).foldl
    (fun acc j => if j = i then acc else basisFactor t (xs.getD i 0) (xs.getD j 0) acc) 0x01

/-- `lagrange0(xs, ys)` (R135). -/
def lagrange0 (t : Tables) (xs ys : List Byte) : Byte :=
  (List.range xs.length).foldl (fun r i => gfAdd r (gfMul t (ys.getD i 0) (basisAt t xs i))) 0x00

end Sys2Proof.Machine
end

