-- ==== Sys2Proof/Machine/Operands.lean ====
section
/-! DEFINITION. The operand forms beyond one register or one slot: blocks of consecutive slots with their checks (R123, R124, R139, R196), and the lists the checks look at. -/

namespace Sys2Proof.Machine

/-- Slot `a + j` of a block. The block commands use it only after the check that `a + k <= 256`, so the
number never wraps (R123, R139). -/
def slotAt (a : Slot) (j : Nat) : Slot := ⟨(a.val + j) % 256, Nat.mod_lt _ (by decide)⟩

/-- The contents of the `k` slots `a`, `a+1`, .., `a+k-1`, in that order (R123, R139). -/
def State.block (s : State) (a : Slot) (k : Nat) : List (List Byte) :=
  (List.range k).map fun j => s.buf (slotAt a j)

/-- The slots `a .. a+k-1` pass slot 255 (R123, R139). -/
def pastLastSlot (a : Slot) (k : Nat) : Bool := decide (a.val + k > 256)

/-- `a <= d <= a + k - 1`: the destination is one of the `k` source slots (R123, R139). -/
def inBlock (d a : Slot) (k : Nat) : Bool := decide (1 ≤ k) && decide (a.val ≤ d.val) && decide (d.val ≤ a.val + k - 1)

/-- The lowest `j` in 1 .. k-1 with `B[a+j].len != B[a].len` (R123, R139). -/
def State.firstMismatch (s : State) (a : Slot) (k : Nat) : Option Nat :=
  (List.range k).find? fun j => decide (1 ≤ j) && s.len (slotAt a j) != s.len a

/-- The lowest `j` in 0 .. k-1 with `B[a+j].len < 2` (R139). -/
def State.firstShort (s : State) (a : Slot) (k : Nat) : Option Nat :=
  (List.range k).find? fun j => decide (s.len (slotAt a j) < 2)

/-- The lowest `j` whose byte equals a byte at a lower index (R138, R139). -/
def firstRepeat (xs : List Byte) : Option Nat :=
  (List.range xs.length).find? fun j => (xs.take j).contains (xs.getD j 0)

/-- A number as the value an error records (R196). -/
def info (n : Nat) : Word32 := BitVec.ofNat 32 n

/-- A check that raises `err` with the value `v` when `bad` (R8). -/
def raiseIf (bad : Bool) (err : Err) (v : Word32) : Option (Err × Word32) := if bad then some (err, v) else none

/-- A check that raises `err` for the index found, if there is one (R196). -/
def raiseAt (found : Option Nat) (err : Err) (v : Nat → Word32) : Option (Err × Word32) :=
  found.map fun j => (err, v j)

end Sys2Proof.Machine
end

