-- ==== Sys2Proof/Machine/DataMove.lean ====
section
/-! DEFINITION. Data movement: LDI, LDB, STB, SETLEN (R155 to R158). -/

namespace Sys2Proof.Machine

/-- LDI `ed, imm8` (R155). -/
def execLdi (d : Reg) (imm : Byte) (s : State) : Result := (s.setE d imm).finish

/-- LDB `ed, ba, off` (R156). -/
def execLdb (d : Reg) (a : Slot) (off : Nat) (s : State) : Result :=
  s.checked (raiseIf (decide (off ≥ s.len a)) .range (info off)) fun s => s.setE d (s.byte a off)

/-- STB `es, ba, off` (R157). -/
def execStb (r : Reg) (a : Slot) (off : Nat) (s : State) : Result :=
  s.checked (raiseIf (decide (off ≥ s.len a)) .range (info off)) fun s => s.setByte a off (s.e r)

/-- SETLEN `ba, len`: what is cut off is wiped first (R158). -/
def execSetlen (a : Slot) (len : Nat) (s : State) : Result :=
  s.checked (raiseIf (decide (len > s.maxLen.toNat)) .range (info len)) fun s =>
    (s.zeroBytes a len (s.len a)).setLen a len

end Sys2Proof.Machine
end

