-- ==== Sys2Proof/Machine/FieldScalar.lean ====
section
/-! DEFINITION. The scalar commands of the Field Engine: GFADD, GFMUL, GFDIV, GFINV, GFEXP, GFLOG (R96 to R101). -/

namespace Sys2Proof.Machine

/-- GFADD `ed, ea, eb` (R96). -/
def execGfadd (d a b : Reg) (s : State) : Result := (s.setE d (gfAdd (s.e a) (s.e b))).finish

/-- GFMUL `ed, ea, eb` (R97). -/
def execGfmul (d a b : Reg) (s : State) : Result := (s.setE d (gfMul s.tables (s.e a) (s.e b))).finish

/-- GFDIV `ed, ea, eb`: a zero denominator is fatal, whatever the numerator (R98). -/
def execGfdiv (d a b : Reg) (s : State) : Result :=
  if h : s.e b = 0x00 then s.raise .divZero 0
  else (s.setE d (gfDiv s.tables (s.e a) (s.e b) h)).finish

/-- GFINV `ed, ea`: a zero operand is fatal (R99). -/
def execGfinv (d a : Reg) (s : State) : Result :=
  if h : s.e a = 0x00 then s.raise .invZero 0
  else (s.setE d (gfInv s.tables (s.e a) h)).finish

/-- GFEXP `ed, ea` (R100). -/
def execGfexp (d a : Reg) (s : State) : Result := (s.setE d (s.tables.expAt (s.e a))).finish

/-- GFLOG `ed, ea`: operand 0x00 reads the sentinel (R101). -/
def execGflog (d a : Reg) (s : State) : Result := (s.setE d (s.tables.logAt (s.e a))).finish

end Sys2Proof.Machine
end

