-- ==== Sys2Proof/Machine/FieldVector.lean ====
section
/-! DEFINITION. The vector commands of the Field Engine: VADD, VMUL, VZERO (R110 to R113). -/

namespace Sys2Proof.Machine

/-- VADD `bd, ba, bb`: the sources are read before the destination is written (R110, R111). -/
def execVadd (d a b : Slot) (s : State) : Result :=
  s.checked (raiseIf (s.len a != s.len b) .lenMismatch (info b.val))
    fun s => s.setBuf d ((s.buf a).zipWith gfAdd (s.buf b))

/-- VMUL `bd, ba, ex` (R110, R112). -/
def execVmul (d a : Slot) (x : Reg) (s : State) : Result :=
  (s.setBuf d ((s.buf a).map fun v => gfMul s.tables v (s.e x))).finish

/-- VZERO `bd`: the length stays (R113). -/
def execVzero (d : Slot) (s : State) : Result := (s.zeroBytes d 0 (s.len d)).finish

end Sys2Proof.Machine
end

