-- ==== Sys2Proof/Machine/Interpolate.lean ====
section
/-! DEFINITION. The Interpolator: LAGR0, COMBINE and their scratch `XS`, `YS` (R135 to R141). -/

namespace Sys2Proof.Machine

/-! ### Scratch -/

/-- Entry `j` holds byte `j` of `q`; entries past `q` keep what they held (R140; log 13). -/
def Scratch.load (v : Scratch) (q : List Byte) : Scratch :=
  ⟨(q.take 256 ++ v.toList.drop q.length).toArray, by simp; omega⟩

/-- 0x00 to the first `k` entries, the ones used (R140; log 13). -/
def Scratch.wipe (v : Scratch) (k : Nat) : Scratch := v.load (List.replicate k 0x00)

/-- The first `k` entries. -/
def Scratch.held (v : Scratch) (k : Nat) : List Byte := v.toList.take k

/-- The byte positions one after another: load `YS`, interpolate over what `XS` and `YS` hold, wipe `YS`
(R135, R139, R140). Answers the results and `YS`. -/
def interpPositions (t : Tables) (xs : Scratch) (k : Nat) : Scratch → List (List Byte) → List Byte × Scratch
  | ys, [] => ([], ys)
  | ys, q :: rest =>
    let loaded := ys.load q
    let later := interpPositions t xs k (loaded.wipe k) rest
    (lagrange0 t (xs.held k) (loaded.held k) :: later.1, later.2)

/-- Load `XS`, compute every position, wipe `XS` (R140). -/
def State.interpolate (s : State) (q : List Byte) (positions : List (List Byte)) : List Byte × State :=
  let loaded := s.xs.load q
  let r := interpPositions s.tables loaded q.length s.ys positions
  (r.1, { s with xs := loaded.wipe q.length, ys := r.2 })

/-! ### Commands -/

/-- The checks of LAGR0 in their order (R138). -/
def State.lagr0Check (s : State) (a b : Slot) : Option (Err × Word32) :=
  raiseIf (decide (s.len a < 2)) .tooFew (info (s.len a)) <|>
  raiseIf (s.len b != s.len a) .lenMismatch (info b.val) <|>
  raiseAt (firstRepeat (s.buf a)) .dupX info

/-- LAGR0 `ed, ba, bb` (R138). -/
def execLagr0 (d : Reg) (a b : Slot) (s : State) : Result :=
  s.checked (s.lagr0Check a b) fun s =>
    let r := s.interpolate (s.buf a) [s.buf b]
    r.2.setE d (r.1.getD 0 0)

/-- The bytes at offset `p` of the slots `a .. a+k-1` (R139). -/
def State.column (s : State) (a : Slot) (k p : Nat) : List Byte :=
  (List.range k).map fun j => s.byte (slotAt a j) p

/-- The checks of COMBINE in their order (R139, conflict C3). -/
def State.combineCheck (s : State) (d a : Slot) (k : Nat) : Option (Err × Word32) :=
  raiseIf (pastLastSlot a k) .range (info k) <|>
  raiseIf (inBlock d a k) .aliased (info d.val) <|>
  raiseIf (decide (k < 2)) .tooFew (info k) <|>
  raiseAt (s.firstShort a k) .short (fun j => info (a.val + j)) <|>
  raiseAt (s.firstMismatch a k) .lenMismatch (fun j => info (a.val + j)) <|>
  raiseAt (firstRepeat (s.column a k 0)) .dupX (fun j => info (a.val + j))

/-- The y values of payload positions `p` = 1 .. L-1 (R139). -/
def State.payload (s : State) (a : Slot) (k : Nat) : List (List Byte) :=
  (List.range (s.len a - 1)).map fun p => s.column a k (p + 1)

/-- COMBINE `bd, ba, k` (R139). -/
def execCombine (d a : Slot) (k : Nat) (s : State) : Result :=
  s.checked (s.combineCheck d a k) fun s =>
    let r := s.interpolate (s.column a k 0) (s.payload a k)
    r.2.setBuf d r.1

end Sys2Proof.Machine
end

