-- ==== Sys2Proof/Machine/PolyEval.lean ====
section
/-! DEFINITION. The Polynomial Evaluator: PEVAL, PEVALV, PSHARE (R120 to R125). -/

namespace Sys2Proof.Machine

/-- `horner_vec` over the slots `a .. a+k-1`, `k >= 1`: seeded from slot `a+k-1`, then down to slot `a`
(R121, R123). -/
def State.evalBlock (s : State) (a : Slot) (k : Nat) (x : Byte) : List Byte :=
  hornerVec s.tables (s.buf (slotAt a (k - 1))) (s.block a (k - 1)).reverse x

/-- Checks 2 and 3 of R123 and R124: the destination among the sources, then unequal lengths. -/
def State.sourcesCheck (s : State) (d a : Slot) (k : Nat) : Option (Err × Word32) :=
  raiseIf (inBlock d a k) .aliased (info d.val) <|>
  raiseAt (s.firstMismatch a k) .lenMismatch (fun j => info (a.val + j))

/-- The checks of PEVALV in their order (R123). -/
def State.pevalvCheck (s : State) (d a : Slot) (k : Nat) : Option (Err × Word32) :=
  raiseIf (decide (k = 0) || pastLastSlot a k) .range (info k) <|> s.sourcesCheck d a k

/-- The checks of PSHARE in their order (R124). -/
def State.pshareCheck (s : State) (d a : Slot) (x : Reg) (k : Nat) : Option (Err × Word32) :=
  raiseIf (decide (k = 0) || pastLastSlot a k || decide (s.len a + 1 > s.maxLen.toNat)) .range (info k) <|>
  s.sourcesCheck d a k <|>
  raiseIf (s.e x == 0x00) .zeroX 0

/-- PEVAL `ed, ba, ex` (R122). -/
def execPeval (d : Reg) (a : Slot) (x : Reg) (s : State) : Result :=
  (s.setE d (horner s.tables (s.buf a) (s.e x))).finish

/-- PEVALV `bd, ba, ex, k` (R123). -/
def execPevalv (d a : Slot) (x : Reg) (k : Nat) (s : State) : Result :=
  s.checked (s.pevalvCheck d a k) fun s => s.setBuf d (s.evalBlock a k (s.e x))

/-- PSHARE `bd, ba, ex, k`: the x-coordinate, then the payload (R124). -/
def execPshare (d a : Slot) (x : Reg) (k : Nat) (s : State) : Result :=
  s.checked (s.pshareCheck d a x k) fun s => s.setBuf d (s.e x :: s.evalBlock a k (s.e x))

end Sys2Proof.Machine
end

