-- ==== Sys2Proof/Machine/Dispatch.lean ====
section
/-! DEFINITION. The meaning of each command, one arm per constructor of Instr (R72). -/

namespace Sys2Proof.Machine

def exec (i : Instr) (s : State) : Host.Outcome State Fault Refusal :=
  match i with
  | .gfadd ed ea eb => Sys2Proof.Machine.execGfadd ed ea eb s
  | .gfmul ed ea eb => Sys2Proof.Machine.execGfmul ed ea eb s
  | .gfdiv ed ea eb => Sys2Proof.Machine.execGfdiv ed ea eb s
  | .gfinv ed ea => Sys2Proof.Machine.execGfinv ed ea s
  | .gfexp ed ea => Sys2Proof.Machine.execGfexp ed ea s
  | .gflog ed ea => Sys2Proof.Machine.execGflog ed ea s
  | .vadd bd ba bb => Sys2Proof.Machine.execVadd bd ba bb s
  | .vmul bd ba ex => Sys2Proof.Machine.execVmul bd ba ex s
  | .vzero bd => Sys2Proof.Machine.execVzero bd s
  | .peval ed ba ex => Sys2Proof.Machine.execPeval ed ba ex s
  | .pevalv bd ba ex k => Sys2Proof.Machine.execPevalv bd ba ex k s
  | .pshare bd ba ex k => Sys2Proof.Machine.execPshare bd ba ex k s
  | .lagr0 ed ba bb => Sys2Proof.Machine.execLagr0 ed ba bb s
  | .combine bd ba k => Sys2Proof.Machine.execCombine bd ba k s
  | .ldi ed imm => Sys2Proof.Machine.execLdi ed imm s
  | .ldb ed ba off => Sys2Proof.Machine.execLdb ed ba off s
  | .stb es ba off => Sys2Proof.Machine.execStb es ba off s
  | .setlen ba len => Sys2Proof.Machine.execSetlen ba len s

end Sys2Proof.Machine
end

