-- ==== Sys2Proof/Machine/HostPort.lean ====
section
/-! DEFINITION. The host port's actions beside `HostIssue` (R57): what each hands back and what it does to the engine. -/

namespace Sys2Proof.Machine

/-- What the port hands back for an action: a function of the state, for a read changes nothing (R54, R57; log 15). -/
def PortAction.result (act : PortAction) (s : State) : Option HostResult :=
  match act with
  | .writeBuf _ _ => none
  | .readBuf b => some (.buf (s.len b) (s.buf b))
  | .readReg r => some (.reg (s.e r))
  | .readCsr k => some (.csr (s.csr k))
  | .reset => none

/-- What a port action does to the engine (R57). `HostWriteBuf` longer than `MAXLEN` is not a move the port
offers (R57, U19; log 12). -/
def State.portAction (s : State) (act : PortAction) : Result :=
  match act with
  | .writeBuf b q => if q.length ≤ s.maxLen.toNat then .next (s.setBuf b q) else .refused .noSuchHostMove
  | .readBuf _ => .next s
  | .readReg _ => .next s
  | .readCsr _ => .next s
  | .reset => .next s.hostReset

end Sys2Proof.Machine
end

