-- ==== Sys2Proof/Machine/Agents.lean ====
section
/-! DEFINITION. The moves of the three agents (R34): the engine's life of one issued word (R192), the initialiser's step (R222) and the host's port actions (R57), and which of them moves. -/

namespace Sys2Proof.Machine

/-- The host has made its first waiting move; `rest` is what is still to come. -/
def State.withHost (s : State) (rest : List HostAction) : State := { s with host := rest }

/-- An accepted word: an illegal one completes with `ERR_ILLEGAL` and `w[63:32]`, any other runs (R76, R192). -/
def State.accept (s : State) (w : CmdWord) : Result :=
  match decode w with
  | .error _ => s.raise .illegal (w.extractLsb' 32 32)
  | .ok i => exec i s

/-- `HostIssue(w)` at a ready engine: refused with no change while `FATAL = 1`, else accepted (R192, R194;
log 9). -/
def State.issue (s : State) (w : CmdWord) : Result := if s.fatal then .next s else s.accept w

/-- Two agents can move: the tables are not built and a port action waits (R57, R222; log 7). -/
def State.choiceOpen (s : State) : Bool :=
  match s.host with
  | .port _ :: _ => !s.ready
  | .issue _ :: _ => false
  | [] => false

/-- The initialiser moves now: always while `READY = 0` and nothing else can move (a word is held then), and
by a free choice when a port action waits too (R192, R222; log 7). -/
def State.initialiserMoves (s : State) : Bool :=
  !s.ready && (!s.choiceOpen || Config.initialiserFirst s.freeCount)

/-- A choice between two agents uses up one free value (log 7). -/
def State.afterChoice (s : State) : State :=
  if s.choiceOpen then { s with freeCount := s.freeCount + 1 } else s

/-- One move of one agent (R34). With no host move left a ready engine is idle and keeps all its state (R203);
after a fatal stop it has no next state (R194, R198; log 10). -/
def State.move (s : State) : Result :=
  if s.initialiserMoves then .next s.afterChoice.initialise
  else
    match s.host with
    | [] => if s.fatal then .fault .fatalStop else .next s
    | .issue w :: rest => (s.withHost rest).issue w
    | .port act :: rest => (s.afterChoice.withHost rest).portAction act

/-- The state in which the very next step accepts the word `w`: tables built, `READY = 1`, `FATAL = 0`, and
`HostIssue(w)` the host's next move (log 16). -/
def State.placeWord (s : State) (w : CmdWord) : State :=
  { s.initialise with fatal := false, host := .issue w :: s.host }

end Sys2Proof.Machine
end

