-- ==== Sys2Proof/Machine/HostProcedures.lean ====
section
/-! DEFINITION. The host's procedures around the engine (R165 to R183), beside the engine and no part of its step: parameter checks, the lists of host moves that carry out a split or a combine, calls queued onto one engine, and the integrity layer (log 19). -/

namespace Sys2Proof.Machine

/-! ### How a call ends -/

/-- The host's returned errors (R180), with the offending value where the document asks for one (R166). The document
names two of them, `ErrIntegrityCheckFailed` and `ErrInsufficientShares`; the other names are the model's (log 19). -/
inductive HostError where
  /-- Parameter error: the secret is empty (R166). -/
  | emptySecret
  /-- Parameter error: `parts` outside 2 .. 255 (R166). -/
  | badParts (parts : Nat)
  /-- Parameter error: `threshold` outside 2 .. `parts` (R166). -/
  | badThreshold (threshold : Nat)
  /-- The engine cannot hold a buffer of this length (R57, R166; for a share given to combine log 22). -/
  | tooLong (len : Nat)
  /-- The slots the host gave the call do not hold it (R123, R139; log 19). -/
  | badSlots
  /-- The random source gave no usable coefficients (R167). -/
  | noRandomness
  /-- More than 255 shares: no call is valid (R170). -/
  | tooManyShares (k : Nat)
  /-- Structural error, with `ERRCODE` and `ERRINFO` as the engine reports them (R170, R171). -/
  | structural (code : Byte) (info : Word32)
  /-- `ErrIntegrityCheckFailed` (R174). -/
  | integrityCheckFailed
  /-- `ErrInsufficientShares` (R177). -/
  | insufficientShares
  /-- The engine gave no result. -/
  | noResult
  deriving DecidableEq, Repr

/-- How a call to one of the public operations ends (R180, R182): with its answer, with a returned error, or, on an
engine that a fatal error has stopped, unrecoverably, which is no returned error. -/
inductive CallEnd (α : Type) where
  /-- Full success. -/
  | answer (v : α)
  /-- A returned error and no usable output. -/
  | failed (e : HostError)
  /-- The engine is stopped; `ERRCODE` says by which fatal error (R190, R194). -/
  | unrecoverable (code : Byte)
  deriving DecidableEq, Repr

/-- Change the answer, keep any other end. -/
def CallEnd.map {α β : Type} (f : α → β) : CallEnd α → CallEnd β
  | .answer v => .answer (f v)
  | .failed e => .failed e
  | .unrecoverable code => .unrecoverable code

/-! ### What the host sees of a run -/

/-- What the host port hands back in the coming step, if the coming move is a port action (R57). -/
def State.hostGets (s : State) : Option HostResult :=
  match s.host with
  | .port act :: _ => if s.initialiserMoves then none else act.result s
  | .issue _ :: _ => none
  | [] => none

/-- The host's moves one after another until none is left, at most `n` steps: what the host was handed on the way,
and the state at the end. -/
def State.play : Nat → State → List HostResult × State
  | 0, s => ([], s)
  | n + 1, s =>
    if s.host.isEmpty then ([], s)
    else
      match s.move with
      | .next t => let later := t.play n; (s.hostGets.toList ++ later.1, later.2)
      | .fault _ => ([], s)
      | .refused _ => ([], s)

/-- A port action that hands something back (R57). -/
def HostAction.reads : HostAction → Bool
  | .issue _ => false
  | .port (.writeBuf _ _) => false
  | .port (.readBuf _) => true
  | .port (.readReg _) => true
  | .port (.readCsr _) => true
  | .port .reset => false

/-- How many results these moves hand back. -/
def readsIn (moves : List HostAction) : Nat := (moves.filter HostAction.reads).length

/-- Queue moves behind those the host has still to make and play them all (R181): one step for each move, and one for
the initialiser at the start and after each reset. What the moves queued here were handed, and the state after. -/
def State.runHost (s : State) (moves : List HostAction) : List HostResult × State :=
  let queue := s.host ++ moves
  let r := (s.withHost queue).play (2 * queue.length + 1)
  (r.1.drop (readsIn s.host), r.2)

/-- Issue one command. -/
def issueInstr (i : Instr) : HostAction := .issue (encode i)

/-- Wipe and discard slots, on every way out of a call (R183): VZERO, then SETLEN 0 (R169), then an empty
`HostWriteBuf`, which wipes the slot also when the engine is stopped and refuses the two commands (R194; log 19). -/
def wipeSlots (slots : List Slot) : List HostAction :=
  slots.flatMap fun b => [issueInstr (.vzero b), issueInstr (.setlen b 0), .port (.writeBuf b [])]

/-! ### The slots a call owns -/

/-- The slots of one call (R58, R167, R170, R181): the first slot of its block, and the slot for its shares or its
result. Calls queued onto one engine use disjoint slots; the host chooses them (log 19). -/
structure CallSlots where
  first : Slot
  out : Slot
  deriving DecidableEq, Repr

/-- A block of `k` slots and a slot outside it (R123, R139, R168). -/
def CallSlots.fit (p : CallSlots) (k : Nat) : Bool := !pastLastSlot p.first k && !inBlock p.out p.first k

/-- All the slots of a call with a block of `k`. -/
def CallSlots.owned (p : CallSlots) (k : Nat) : List Slot := p.out :: (List.range k).map (slotAt p.first)

/-- The buffers to the slots of the block, in order (R167, R170). -/
def loadMoves (p : CallSlots) (buffers : List (List Byte)) : List HostAction :=
  buffers.mapIdx fun j q => .port (.writeBuf (slotAt p.first j) q)

/-! ### Split -/

/-- The preconditions of split (R166). DESIGN CHOICE: where several fail, the spec gives no order; here the secret,
`parts`, `threshold` and the length are looked at in turn (log 23). -/
def splitCheck (maxLen : Word32) (secret : List Byte) (parts threshold : Nat) : Option HostError :=
  if secret.length = 0 then some .emptySecret
  else if parts < 2 ∨ 255 < parts then some (.badParts parts)
  else if threshold < 2 ∨ parts < threshold then some (.badThreshold threshold)
  else if secret.length + 1 > maxLen.toNat then some (.tooLong secret.length)
  else none

/-- The random buffers are the coefficient buffers 1 .. threshold-1, as long as the secret (R167). -/
def randomFits (secret : List Byte) (random : List (List Byte)) (threshold : Nat) : Bool :=
  random.length == threshold - 1 && random.all fun q => q.length == secret.length

/-- All that must hold before a split touches the engine (R166, R167). -/
def splitRefuses (maxLen : Word32) (p : CallSlots) (secret : List Byte) (random : List (List Byte))
    (parts threshold : Nat) : Option HostError :=
  splitCheck maxLen secret parts threshold <|>
  (if p.fit threshold then none else some .badSlots) <|>
  (if randomFits secret random threshold then none else some .noRandomness)

/-- Share `i`: x-coordinate `i + 1`, evaluate, read the status and the share (R57, R168). -/
def shareMoves (p : CallSlots) (threshold i : Nat) : List HostAction :=
  [issueInstr (.ldi 1 (BitVec.ofNat 8 (i + 1))), issueInstr (.pshare p.out p.first 1 threshold),
    .port (.readCsr 0), .port (.readBuf p.out)]

/-- The host's moves of one split (R167, R168, R169). -/
def splitMoves (p : CallSlots) (secret : List Byte) (random : List (List Byte)) (parts threshold : Nat) :
    List HostAction :=
  loadMoves p (secret :: random) ++ (List.range parts).flatMap (shareMoves p threshold) ++
    wipeSlots (p.owned threshold)

/-- `ERRCODE` in the word the host reads as `STATUS` (R28). -/
def errcodeOf (status : Word32) : Byte := status.extractLsb' 8 8

/-- `FATAL` in the word the host reads as `STATUS` (R28). -/
def fatalOf (status : Word32) : Bool := status.getLsbD 1

/-- The shares among what the host was handed: all of them, or none (R182: no partial results). A stopped engine is no
returned error (R180). -/
def sharesOf : List HostResult → CallEnd (List (List Byte))
  | [] => .answer []
  | .csr status :: .buf _ q :: rest =>
    if fatalOf status then .unrecoverable (errcodeOf status)
    else if errcodeOf status = 0 then (sharesOf rest).map (q :: ·)
    else .failed .noResult
  | _ => .failed .noResult

/-- `split(secret, parts, threshold)`, the slots and the random bytes given (R165 to R169, R182): how it ends, and the
state of the engine after. -/
def split (s : State) (p : CallSlots) (secret : List Byte) (random : List (List Byte)) (parts threshold : Nat) :
    CallEnd (List (List Byte)) × State :=
  match splitRefuses s.maxLen p secret random parts threshold with
  | some e => (.failed e, s)
  | none =>
    let r := s.runHost (splitMoves p secret random parts threshold)
    (sharesOf r.1, r.2)

/-! ### Combine -/

/-- All that must hold before a combine touches the engine: at most 255 shares (R170), slots that hold them, and, by
the model's choice, no share that `HostWriteBuf` does not take (R57). DESIGN CHOICE: the spec names no error for a share
longer than `MAXLEN`; here it is refused before any slot is written (log 22). -/
def combineRefuses (maxLen : Word32) (p : CallSlots) (shares : List (List Byte)) : Option HostError :=
  if shares.length > 255 then some (.tooManyShares shares.length)
  else if !p.fit shares.length then some .badSlots
  else (shares.find? fun q => decide (q.length > maxLen.toNat)).map fun q => .tooLong q.length

/-- The host's moves of one combine: shares to the block, COMBINE, read the status, the cause and the result, wipe
(R170, R183). -/
def combineMoves (p : CallSlots) (shares : List (List Byte)) : List HostAction :=
  loadMoves p shares ++
    [issueInstr (.combine p.out p.first shares.length), .port (.readCsr 0), .port (.readCsr 1),
      .port (.readBuf p.out)] ++
    wipeSlots (p.owned shares.length)

/-- The secret among what the host was handed, or the engine's report (R170, R171, R180). -/
def secretOf : List HostResult → CallEnd (List Byte)
  | [.csr status, .csr cause, .buf _ secret] =>
    if fatalOf status then .unrecoverable (errcodeOf status)
    else if errcodeOf status = 0 then .answer secret
    else .failed (.structural (errcodeOf status) cause)
  | _ => .failed .noResult

/-- `combine(shares)`, the slots given (R170, R171, R178, R182): how it ends, and the state of the engine after. -/
def combine (s : State) (p : CallSlots) (shares : List (List Byte)) : CallEnd (List Byte) × State :=
  match combineRefuses s.maxLen p shares with
  | some e => (.failed e, s)
  | none =>
    let r := s.runHost (combineMoves p shares)
    (secretOf r.1, r.2)

/-! ### Calls queued onto one engine -/

/-- One call of a caller, with the slots the host gave it (R181). -/
inductive Call where
  /-- `split`. -/
  | split (p : CallSlots) (secret : List Byte) (random : List (List Byte)) (parts threshold : Nat)
  /-- `combine`. -/
  | combine (p : CallSlots) (shares : List (List Byte))
  deriving DecidableEq, Repr

/-- The slots a call uses (R58). -/
def Call.slots : Call → List Slot
  | .split p _ _ _ threshold => p.owned threshold
  | .combine p shares => p.owned shares.length

/-- No slot belongs to two calls: each owns its buffers (R58, R181). -/
def disjointCalls (calls : List Call) : Prop := calls.Pairwise fun c d => ∀ b ∈ c.slots, b ∉ d.slots

/-- The moves of a call; none if it is refused beforehand. -/
def Call.moves (maxLen : Word32) : Call → List HostAction
  | .split p secret random parts threshold =>
    if (splitRefuses maxLen p secret random parts threshold).isSome then []
    else splitMoves p secret random parts threshold
  | .combine p shares => if (combineRefuses maxLen p shares).isSome then [] else combineMoves p shares

/-- What a caller gets: the shares or the secret. -/
inductive CallAnswer where
  | shares (q : List (List Byte))
  | secret (q : List Byte)
  deriving DecidableEq, Repr

/-- How a call ends, by what its own moves were handed. -/
def Call.ending (maxLen : Word32) (handed : List HostResult) : Call → CallEnd CallAnswer
  | .split p secret random parts threshold =>
    match splitRefuses maxLen p secret random parts threshold with
    | some e => .failed e
    | none => (sharesOf handed).map .shares
  | .combine p shares =>
    match combineRefuses maxLen p shares with
    | some e => .failed e
    | none => (secretOf handed).map .secret

/-- Give each call in turn what its own moves were handed. -/
def endings (maxLen : Word32) : List Call → List HostResult → List (CallEnd CallAnswer)
  | [], _ => []
  | c :: rest, handed =>
    let n := readsIn (c.moves maxLen)
    c.ending maxLen (handed.take n) :: endings maxLen rest (handed.drop n)

/-- Several calls, queued by the host onto one engine behind what it has still to do; one command runs at a time, each
to its end (R181). -/
def serve (s : State) (calls : List Call) : List (CallEnd CallAnswer) × State :=
  let r := s.runHost (calls.flatMap (Call.moves s.maxLen))
  (endings s.maxLen calls r.1, r.2)

/-! ### Integrity layer -/

/-- The four bytes of a checksum, little-endian (R173, R179). -/
def le32 (v : Word32) : List Byte :=
  [v.extractLsb' 0 8, v.extractLsb' 8 8, v.extractLsb' 16 8, v.extractLsb' 24 8]

/-- `addIntegrityCheck(share)`: the checksum covers the payload only (R173, conflict C2). -/
def addIntegrityCheck (share : List Byte) : List Byte := share ++ le32 (Config.crc32 (share.drop 1))

/-- `validateIntegrityCheck(extendedShare)` (R174). DESIGN CHOICE: a sequence shorter than the four checksum bytes,
of which the spec does not say which kind of error it is, is an integrity error (log 21). -/
def validateIntegrityCheck (extended : List Byte) : Except HostError (List Byte) :=
  let share := extended.take (extended.length - 4)
  if extended = addIntegrityCheck share then .ok share else .error .integrityCheckFailed

/-- Validate every share, the first failure ends it (R174). -/
def validateAll : List (List Byte) → Except HostError (List (List Byte))
  | [] => .ok []
  | q :: rest =>
    match validateIntegrityCheck q with
    | .error e => .error e
    | .ok share =>
      match validateAll rest with
      | .error e => .error e
      | .ok shares => .ok (share :: shares)

/-- `splitWithIntegrity` (R182). -/
def splitWithIntegrity (s : State) (p : CallSlots) (secret : List Byte) (random : List (List Byte))
    (parts threshold : Nat) : CallEnd (List (List Byte)) × State :=
  let r := split s p secret random parts threshold
  (r.1.map fun shares => shares.map addIntegrityCheck, r.2)

/-- `combineWithIntegrity`: no mismatch reaches the interpolator (R174, R182). -/
def combineWithIntegrity (s : State) (p : CallSlots) (extended : List (List Byte)) : CallEnd (List Byte) × State :=
  match validateAll extended with
  | .error e => (.failed e, s)
  | .ok shares => combine s p shares

/-! ### Secure variants -/

/-- `zeroize(buffer)` on the caller's own memory (R183). -/
def zeroized (q : List Byte) : List Byte := List.replicate q.length 0x00

/-- `splitSecure`: split, and the caller's secret buffer as it is left (R176, conflict C5). With `enforceThreshold` the
threshold is looked at before all else ("fails before generating anything"); against the other parameter errors that
order is a DESIGN CHOICE (log 23). DEDUCED: the secret buffer is zeroized on every way out, also where the call is
rejected before using it (R183 against R176; log 20). -/
def splitSecure (s : State) (p : CallSlots) (secret : List Byte) (random : List (List Byte)) (parts threshold : Nat)
    (enforceThreshold : Bool) : (CallEnd (List (List Byte)) × State) × List Byte :=
  if enforceThreshold && decide (parts < threshold) then ((.failed (.badThreshold threshold), s), zeroized secret)
  else (split s p secret random parts threshold, zeroized secret)

/-- `combineSecure`: the caller's own threshold first, then combine, and the caller's share buffers as they are left
(R177, R178). DEDUCED: the share buffers are zeroized on every way out, also where the call is rejected before using
them (R183 against R177; log 20). -/
def combineSecure (s : State) (p : CallSlots) (shares : List (List Byte)) (expectedThreshold : Nat) :
    (CallEnd (List Byte) × State) × List (List Byte) :=
  if 0 < expectedThreshold ∧ shares.length < expectedThreshold then
    ((.failed .insufficientShares, s), shares.map zeroized)
  else (combine s p shares, shares.map zeroized)

end Sys2Proof.Machine
end

