-- ==== Sys2Proof/Safety.lean ====
section
/-! DEFINITION. The words claims are stated in: what a step leaves unchanged, how a command ended (R192, R193), what holds in every state of a run (R26, R28, R32, R35), when a run is safe (R198, R226), and the field product without tables (R94). -/

namespace Sys2Proof.Machine

/-! ### What stays -/

/-- What no command writes: the tables, `MAXLEN`, `READY`, the host's moves to come, and the model's counter. -/
structure SameRest (s t : State) : Prop where
  tables : t.tables = s.tables
  maxLen : t.maxLen = s.maxLen
  ready : t.ready = s.ready
  host : t.host = s.host
  freeCount : t.freeCount = s.freeCount

/-- All registers, all lengths, every byte of every slot, and both arrays of scratch. -/
structure SameData (s t : State) : Prop where
  regs : ∀ r, t.e r = s.e r
  lens : ∀ b, t.len b = s.len b
  bytes : ∀ b i, t.byte b i = s.byte b i
  xs : t.xs = s.xs
  ys : t.ys = s.ys

/-- The status fields and `pc`. -/
structure SameStatus (s t : State) : Prop where
  errcode : t.errcode = s.errcode
  errinfo : t.errinfo = s.errinfo
  esticky : t.esticky = s.esticky
  fatal : t.fatal = s.fatal
  pc : t.pc = s.pc

/-- Beside register `d` and the status nothing changes. -/
structure OnlyReg (s t : State) (d : Reg) : Prop where
  regs : ∀ r, r ≠ d → t.e r = s.e r
  lens : ∀ b, t.len b = s.len b
  bytes : ∀ b i, t.byte b i = s.byte b i
  xs : t.xs = s.xs
  ys : t.ys = s.ys
  rest : SameRest s t

/-- Outside slot `d` and the status nothing changes. -/
structure OutsideSlot (s t : State) (d : Slot) : Prop where
  regs : ∀ r, t.e r = s.e r
  lens : ∀ b, b ≠ d → t.len b = s.len b
  bytes : ∀ b i, b ≠ d → t.byte b i = s.byte b i
  xs : t.xs = s.xs
  ys : t.ys = s.ys
  rest : SameRest s t

/-- The frame of `SetBuf`: outside slot `d` nothing changes, and of the slot only the bytes up to its new length
and those behind them up to `MAXLEN` (R7). -/
structure OnlySlot (s t : State) (d : Slot) : Prop where
  outside : OutsideSlot s t d
  beyond : ∀ i, t.len d ≤ i → s.maxLen.toNat ≤ i → t.byte d i = s.byte d i

/-- Behind the new content of slot `d` there are zeros up to `MAXLEN` (R7, R26). -/
def ZeroBehind (t : State) (d : Slot) : Prop := ∀ i, t.len d ≤ i → i < t.maxLen.toNat → t.byte d i = 0

/-! ### How a command ended -/

/-- Without error: `complete(0x00, 0)` (R192). -/
structure Succeeded (s t : State) : Prop where
  errcode : t.errcode = 0x00
  errinfo : t.errinfo = 0
  esticky : t.esticky = s.esticky
  fatal : t.fatal = s.fatal
  pc : t.pc = s.pc + 1

/-- With a recoverable error and no other effect (R192, R193). -/
structure Reported (s t : State) (err : Err) (v : Word32) : Prop where
  errcode : t.errcode = err.code
  errinfo : t.errinfo = v
  esticky : t.esticky = true
  fatal : t.fatal = s.fatal
  pc : t.pc = s.pc + 1
  data : SameData s t
  rest : SameRest s t

/-- With a fatal error: the engine stops, `pc` stays, nothing else changes (R192, R193, R194). -/
structure Stopped (s t : State) (err : Err) : Prop where
  errcode : t.errcode = err.code
  errinfo : t.errinfo = 0
  esticky : t.esticky = true
  fatal : t.fatal = true
  pc : t.pc = s.pc
  data : SameData s t
  rest : SameRest s t

/-! ### Runs -/

/-- The words the host has still to issue (R33, R36). -/
def State.pendingWords (s : State) : List CmdWord :=
  s.host.filterMap fun m => match m with
    | .issue w => some w
    | .port _ => none

/-- The run is over: every command has been issued, or a fatal error has stopped the engine (R36, R226). -/
def State.runOver (s : State) : Bool := s.fatal || s.pendingWords.isEmpty

/-- The run has ended well, and no command of it ended in an error (R198, R226). -/
def State.endedSafely (s : State) : Bool := s.pendingWords.isEmpty && !s.fatal && !s.esticky

/-! ### The invariant -/

/-- The slot a key of the memory belongs to (log 4). -/
def slotOfKey (k : Nat) : Slot := ⟨k % 256, Nat.mod_lt _ (by decide)⟩

/-- The codes `ERRCODE` can hold (R191). -/
def knownCodes : List Byte := [0x00, 0x01, 0x02, 0x03, 0x04, 0x05, 0x06, 0x07, 0x08, 0x80, 0x81]

/-- What holds between commands in every run. -/
structure State.Inv (s : State) : Prop where
  /-- The memory is in its canonical form (log 4). -/
  memWf : s.mem.wf
  /-- Zero tail: no byte that is not zero stands at or behind its slot's length (R26). -/
  zeroTail : ∀ c ∈ s.mem, c.1 / 256 < s.len (slotOfKey c.1)
  /-- Every length is at most `MAXLEN` (R25). -/
  lenBound : ∀ b, s.len b ≤ s.maxLen.toNat
  /-- `MAXLEN` is legal (R5). -/
  maxLenBound : 2 ≤ s.maxLen.toNat
  /-- The scratch is zero (R32). -/
  xsClear : s.xs = Scratch.clear
  ysClear : s.ys = Scratch.clear
  /-- The tables are built once the engine is ready (R20, R222). -/
  tablesBuilt : s.ready = true → s.tables = Tables.built
  /-- No other code is ever written to `ERRCODE` (R191). -/
  codeKnown : s.errcode ∈ knownCodes
  /-- `FATAL` is set exactly while the code is of the fatal class (R28, R194). -/
  fatalCode : s.fatal = isFatalCode s.errcode
  /-- A nonzero code has set `ESTICKY` (R28). -/
  stickyCode : s.errcode ≠ 0 → s.esticky = true
  /-- A zero code stands with a zero cause (R29, R196). -/
  zeroInfo : s.errcode = 0 → s.errinfo = 0
  /-- Before the tables are built no command has run (R35, R192). -/
  beforeReady : s.ready = false → s.esticky = false ∧ s.errcode = 0 ∧ s.pc = 0

/-! ### The field product without tables -/

/-- A field element times x, reduced by x^8+x^4+x^3+x^2+1 (R94, C1). -/
def timesX (a : Byte) : Byte := if a.getLsbD 7 then (a <<< 1) ^^^ 0x1D else a <<< 1

/-- The product of two bytes as polynomials over GF(2), reduced: shift and reduce, from the highest bit of `b`
down (R94). -/
def polyMul (a b : Byte) : Byte :=
  (List.range 8).foldr (fun i acc => timesX acc ^^^ (if b.getLsbD i then a else 0)) 0

end Sys2Proof.Machine
end

