-- ==== Sys2Proof/Certificates/Slice0/Obligations.lean ====
section
/-! DEFINITION. The statements for the provers, in the order of the spec: encoding, the step, the field, the commands, the pure functions, the invariant, reset and the host port. -/

open Sys2Proof Sys2Proof.Machine

/-! ### Encoding (R70 to R81) -/

/-- Decoding the word of a well-formed command gives the command back, with every operand at every value (R71 to R74, R81). -/
def Obligations.EncodeThenDecodeGivesTheCommand : Prop :=
  ∀ i : Instr, i.wellFormed = true → decode (encode i) = .ok i

/-- A word that decodes is the one word of a well-formed command: no bit of it is ignored (R73, R76). -/
def Obligations.DecodedWordIsTheCommandsWord : Prop :=
  ∀ (w : CmdWord) (i : Instr), decode w = .ok i → i.wellFormed = true ∧ encode i = w

/-- A word is a row's command exactly when `w AND mask = match`, and no word is covered by two rows (R75). -/
def Obligations.OpcodeTableDecidesTheCommand : Prop :=
  ∀ w : CmdWord,
    (∀ r ∈ opcodeTable, r.covers w = true ↔ ∃ i, decode w = .ok i ∧ i.row = r) ∧
      (∀ r ∈ opcodeTable, ∀ r' ∈ opcodeTable, r.covers w = true → r'.covers w = true → r = r')

/-- The worked encodings of R78, the three illegal words with the reason of each. -/
def Obligations.WorkedEncodings : Prop :=
  decode 0x1103010200000000 = .ok (.gfmul 3 1 2) ∧
  decode 0x13000F0000000000 = .ok (.gfinv 0 15) ∧
  decode 0x2002000100000000 = .ok (.vadd 2 0 1) ∧
  decode 0x2109090400000000 = .ok (.vmul 9 9 4) ∧
  decode 0x3210000100000003 = .ok (.pshare 16 0 1 3) ∧
  decode 0x4120100000000003 = .ok (.combine 32 16 3) ∧
  decode 0x500100000000008E = .ok (.ldi 1 0x8E) ∧
  decode 0x5102070000000400 = .ok (.ldb 2 7 1024) ∧
  decode 0x5300070000000006 = .ok (.setlen 7 6) ∧
  (∀ a b c : Byte, ∀ n : Word32, decode (packFields ⟨0x00, a, b, c, n⟩) = .error .unassignedOpcode) ∧
  decode 0x1010000000000000 = .error .registerOutOfRange ∧
  decode 0x1300010100000000 = .error .fieldNotZero

/-! ### The step (R34, R36, R192 to R198, R222) -/

/-- A ready engine that has not stopped runs the command the issued word decodes to, with the host's move taken
off its list (R192). -/
def Obligations.StepRunsTheDecodedCommand : Prop :=
  ∀ (s : State) (w : CmdWord) (rest : List HostAction) (i : Instr),
    s.host = .issue w :: rest → s.ready = true → s.fatal = false → decode w = .ok i →
      step s = exec i (s.withHost rest)

/-- A word that matches no row of the opcode table is illegal; it changes no register and no slot, reports
`ERR_ILLEGAL` with `w[63:32]`, and `pc` advances (R76). -/
def Obligations.IllegalWordOnlyReports : Prop :=
  ∀ w : CmdWord, ((∃ why, decode w = .error why) ↔ ∀ r ∈ opcodeTable, r.covers w = false) ∧
    ∀ (s : State) (rest : List HostAction) (why : Illegal),
      s.host = .issue w :: rest → s.ready = true → s.fatal = false → decode w = .error why →
        ∃ t, step s = .next t ∧ Reported (s.withHost rest) t .illegal (w.extractLsb' 32 32)

/-- A word issued while `READY = 0` is held: the step is the initialiser's, which builds the tables, sets
`READY` and touches nothing else; the word still waits (R192, R222). -/
def Obligations.HeldWordWaitsForTheTables : Prop :=
  ∀ (s : State) (w : CmdWord) (rest : List HostAction),
    s.host = .issue w :: rest → s.ready = false →
      ∃ t, step s = .next t ∧ t.tables = Tables.built ∧ t.ready = true ∧ SameData s t ∧ SameStatus s t ∧
        t.maxLen = s.maxLen ∧ t.host = s.host ∧ t.freeCount = s.freeCount

/-- The hold ends by that one step: the second step runs the held command over the built tables (R222). -/
def Obligations.HeldWordRunsInTheSecondStep : Prop :=
  ∀ (s : State) (w : CmdWord) (rest : List HostAction) (i : Instr),
    s.host = .issue w :: rest → s.ready = false → s.fatal = false → decode w = .ok i →
      Sys2Proof.core.run 2 s = exec i (s.initialise.withHost rest)

/-- A word issued while `FATAL = 1` is refused: nothing of the engine changes, not even `ERRCODE`, `ERRINFO` or
`pc`; the host goes on to its next move (R192; the second clause is log 9). -/
def Obligations.RefusedWordChangesNothing : Prop :=
  ∀ (s : State) (w : CmdWord) (rest : List HostAction),
    s.host = .issue w :: rest → s.ready = true → s.fatal = true →
      ∃ t, step s = .next t ∧ SameData s t ∧ SameStatus s t ∧ t.tables = s.tables ∧ t.maxLen = s.maxLen ∧
        t.ready = s.ready ∧ t.freeCount = s.freeCount ∧ t.host = rest

/-- The model's choice (log 10): once the host has no move left, a stopped engine has no next state, and a
ready engine that has not stopped keeps all its state. -/
def Obligations.EndOfTheHostsMoves : Prop :=
  ∀ s : State, s.host = [] → s.ready = true →
    (s.fatal = true → step s = .fault .fatalStop) ∧ (s.fatal = false → step s = .next s)

/-- No behaviour is undefined: every issued word, in every state, has a next state of the model (R198). The next
state of a word that is refused or held is the model's choice of log 9. -/
def Obligations.EveryIssuedWordHasANextState : Prop :=
  ∀ (s : State) (w : CmdWord) (rest : List HostAction), s.host = .issue w :: rest → ∃ t, step s = .next t

/-- `READY`, `FATAL` and `ESTICKY` only ever go from 0 to 1 between two resets (R28). -/
def Obligations.FlagsOnlyRiseBetweenResets : Prop :=
  ∀ s t : State, (∀ rest, s.host ≠ .port .reset :: rest) → step s = .next t →
    (s.ready = true → t.ready = true) ∧ (s.fatal = true → t.fatal = true) ∧ (s.esticky = true → t.esticky = true)

/-- After a fatal stop no step but a reset changes a register, the status, the cause or `pc`, and no step but a
host write changes a slot (R194). -/
def Obligations.FatalStopFreezesTheEngine : Prop :=
  ∀ s t : State, s.ready = true → s.fatal = true → (∀ rest, s.host ≠ .port .reset :: rest) → step s = .next t →
    SameStatus s t ∧ (∀ r, t.e r = s.e r) ∧ t.tables = s.tables ∧ t.xs = s.xs ∧ t.ys = s.ys ∧
      ((∀ b q rest, s.host ≠ .port (.writeBuf b q) :: rest) → SameData s t)

/-- No command writes the tables, `MAXLEN` or `READY` (R20, R27), or touches the host's moves to come. -/
def Obligations.CommandsKeepTablesAndConstants : Prop :=
  ∀ (i : Instr) (s t : State), exec i s = .next t → SameRest s t

/-- A command that ends in an error writes no register and no byte or length of any slot, and leaves the scratch
as it was; and a command that ends without one leaves `FATAL` and `ESTICKY` alone (R193). -/
def Obligations.ErroringCommandHasNoOtherEffect : Prop :=
  ∀ (i : Instr) (s t : State), exec i s = .next t →
    (t.errcode ≠ 0 → SameData s t ∧ SameRest s t ∧ t.esticky = true ∧
        t.fatal = (s.fatal || isFatalCode t.errcode)) ∧
      (t.errcode = 0 → t.errinfo = 0 ∧ t.fatal = s.fatal ∧ t.esticky = s.esticky)

/-- `pc` advances by one on every command that completes, with or without a recoverable error, and stays on a
fatal error (R36). -/
def Obligations.PcCountsCompletedCommands : Prop :=
  ∀ (i : Instr) (s t : State), exec i s = .next t →
    (isFatalCode t.errcode = false → t.pc = s.pc + 1) ∧ (isFatalCode t.errcode = true → t.pc = s.pc)

/-- The commands completed and the words still to issue add up to the same number through every step that is no
reset and after which the engine has not stopped (R36, R226). -/
def Obligations.PcAndPendingWordsAddUp : Prop :=
  ∀ s t : State, (∀ rest, s.host ≠ .port .reset :: rest) → step s = .next t → s.fatal = false → t.fatal = false →
    t.pc + t.pendingWords.length = s.pc + s.pendingWords.length

/-- A fatal error can come only from GFDIV and GFINV with a zero operand; LAGR0 and COMBINE never raise one (R141). -/
def Obligations.OnlyDivideAndInverseAreFatal : Prop :=
  ∀ (i : Instr) (s t : State), exec i s = .next t → s.fatal = false →
    (t.fatal = true ↔ (∃ d a b, i = .gfdiv d a b ∧ s.e b = 0) ∨ (∃ d a, i = .gfinv d a ∧ s.e a = 0))

/-- `ERRCODE`, `ERRINFO`, `ESTICKY` and `pc` affect no command: states that differ only in them give the same
registers, lengths, bytes, scratch, code and cause (R31, R36). -/
def Obligations.StatusFieldsAffectNoCommand : Prop :=
  ∀ (i : Instr) (s t : State) (code : Byte) (v : Word32) (sticky : Bool) (n : Nat), exec i s = .next t →
    ∃ t', exec i { s with errcode := code, errinfo := v, esticky := sticky, pc := n } = .next t' ∧
      SameData t t' ∧ t'.errcode = t.errcode ∧ t'.errinfo = t.errinfo ∧ t'.fatal = t.fatal

/-! ### The tables and the field (R20 to R23, R90 to R95) -/

/-- The build procedure of R21 leaves the tables of R23, whatever the tables held before. -/
def Obligations.BuildProcedureGivesTheTables : Prop :=
  ∀ t : Tables, Tables.build t = Tables.built

/-- The invariants of the tables (R22). -/
def Obligations.TableInvariants : Prop :=
  (∀ b : Byte, b ≠ 0 → Tables.built.expAt (Tables.built.logAt b) = b) ∧
  (∀ i : Byte, i.toNat ≤ 254 → Tables.built.logAt (Tables.built.expAt i) = i) ∧
  Tables.built.expAt 0 = 1 ∧ Tables.built.logAt 1 = 0 ∧ Tables.built.logAt 0 = 255 ∧
  Tables.built.expAt 1 = 2 ∧ Tables.built.logAt 2 = 1

/-- `gf_mul` over the built tables is the product of polynomials reduced by 0x11D, on all 65536 pairs (R94). -/
def Obligations.TableProductIsThePolynomialProduct : Prop :=
  ∀ a b : Byte, gfMul Tables.built a b = polyMul a b

/-- The laws the document states for the field functions, and those R94 adds. -/
def Obligations.FieldLaws : Prop :=
  (∀ a b, gfAdd a b = gfAdd b a) ∧ (∀ a, gfAdd a a = 0) ∧ (∀ a, gfAdd a 0 = a) ∧
  (∀ a b c, gfAdd (gfAdd a b) c = gfAdd a (gfAdd b c)) ∧
  (∀ a b, gfMul Tables.built a b = gfMul Tables.built b a) ∧
  (∀ a, gfMul Tables.built a 1 = a) ∧ (∀ a, gfMul Tables.built a 0 = 0) ∧
  (∀ a b c, gfMul Tables.built (gfMul Tables.built a b) c = gfMul Tables.built a (gfMul Tables.built b c)) ∧
  (∀ a b c, gfMul Tables.built a (gfAdd b c) = gfAdd (gfMul Tables.built a b) (gfMul Tables.built a c)) ∧
  (∀ a b, a ≠ 0 → b ≠ 0 → gfMul Tables.built a b ≠ 0) ∧
  (∀ a b, ∀ h : b ≠ 0, gfDiv Tables.built (gfMul Tables.built a b) b h = a) ∧
  (∀ a, ∀ h : a ≠ 0, gfMul Tables.built a (gfInv Tables.built a h) = 1) ∧
  (∀ a b, ∀ h : b ≠ 0, gfDiv Tables.built a b h = gfMul Tables.built a (gfInv Tables.built b h)) ∧
  (∀ a, ∀ h : a ≠ 0, gfDiv Tables.built a a h = 1) ∧
  (∀ b, ∀ h : b ≠ 0, gfDiv Tables.built 0 b h = 0)

/-! ### Field Engine, scalar commands (R96 to R101) -/

/-- GFADD, the whole rule: its word; it completes in every state; `e[d] <- e[a] XOR e[b]` from the old sources, and
nothing else changes (R96). -/
def Obligations.GfaddResultAndFrame : Prop :=
  ∀ (d a b : Reg) (s : State),
    decode (packFields ⟨0x10, regByte d, regByte a, regByte b, 0⟩) = .ok (.gfadd d a b) ∧
    ∃ t, exec (.gfadd d a b) s = .next t ∧ t.e d = s.e a ^^^ s.e b ∧ OnlyReg s t d ∧ Succeeded s t

/-- GFMUL, the whole rule: its word; it completes in every state; `e[d] <- gf_mul(e[a], e[b])`; a zero source gives
0x00, a source 0x01 copies the other (R97). -/
def Obligations.GfmulResultAndFrame : Prop :=
  ∀ (d a b : Reg) (s : State),
    decode (packFields ⟨0x11, regByte d, regByte a, regByte b, 0⟩) = .ok (.gfmul d a b) ∧
    ∃ t, exec (.gfmul d a b) s = .next t ∧ t.e d = gfMul s.tables (s.e a) (s.e b) ∧
      (s.e a = 0 ∨ s.e b = 0 → t.e d = 0) ∧
      (s.tables = Tables.built → (s.e a = 1 → t.e d = s.e b) ∧ (s.e b = 1 → t.e d = s.e a)) ∧
      OnlyReg s t d ∧ Succeeded s t

/-- GFDIV, the whole rule: its word; with a nonzero denominator `e[d] <- gf_div(e[a], e[b])`; with a zero one,
whatever the numerator, the fatal stop `FATAL_DIVZERO(0)` and no other effect (R98). -/
def Obligations.GfdivResultAndFatalStop : Prop :=
  ∀ (d a b : Reg) (s : State),
    decode (packFields ⟨0x12, regByte d, regByte a, regByte b, 0⟩) = .ok (.gfdiv d a b) ∧
    (∀ h : s.e b ≠ 0, ∃ t, exec (.gfdiv d a b) s = .next t ∧ t.e d = gfDiv s.tables (s.e a) (s.e b) h ∧
      OnlyReg s t d ∧ Succeeded s t) ∧
    (s.e b = 0 → ∃ t, exec (.gfdiv d a b) s = .next t ∧ Stopped s t .divZero)

/-- GFINV, the whole rule: its word; `e[d] <- gf_inv(e[a])` for a nonzero operand; the fatal stop
`FATAL_INVZERO(0)` for a zero one (R99). -/
def Obligations.GfinvResultAndFatalStop : Prop :=
  ∀ (d a : Reg) (s : State),
    decode (packFields ⟨0x13, regByte d, regByte a, 0, 0⟩) = .ok (.gfinv d a) ∧
    (∀ h : s.e a ≠ 0, ∃ t, exec (.gfinv d a) s = .next t ∧ t.e d = gfInv s.tables (s.e a) h ∧
      OnlyReg s t d ∧ Succeeded s t) ∧
    (s.e a = 0 → ∃ t, exec (.gfinv d a) s = .next t ∧ Stopped s t .invZero)

/-- GFEXP, the whole rule: its word; it completes in every state; `e[d] <- EXP[e[a]]`; 0x00 and 0xFF give 0x01 (R100). -/
def Obligations.GfexpResultAndFrame : Prop :=
  ∀ (d a : Reg) (s : State),
    decode (packFields ⟨0x14, regByte d, regByte a, 0, 0⟩) = .ok (.gfexp d a) ∧
    ∃ t, exec (.gfexp d a) s = .next t ∧ t.e d = s.tables.exp.get (s.e a).toFin ∧
      (s.tables = Tables.built → s.e a = 0x00 ∨ s.e a = 0xFF → t.e d = 0x01) ∧ OnlyReg s t d ∧ Succeeded s t

/-- GFLOG, the whole rule: its word; it completes in every state; `e[d] <- LOG[e[a]]`; operand 0x00 is no error and
gives the sentinel 0xFF, any other operand a number up to 0xFE (R101). -/
def Obligations.GflogResultAndFrame : Prop :=
  ∀ (d a : Reg) (s : State),
    decode (packFields ⟨0x15, regByte d, regByte a, 0, 0⟩) = .ok (.gflog d a) ∧
    ∃ t, exec (.gflog d a) s = .next t ∧ t.e d = s.tables.log.get (s.e a).toFin ∧
      (s.tables = Tables.built → if s.e a = 0 then t.e d = 0xFF else (t.e d).toNat ≤ 0xFE) ∧
      OnlyReg s t d ∧ Succeeded s t

/-! ### Field Engine, vector commands (R110 to R113) -/

/-- VADD, the whole rule: its word; on equal lengths the XOR of the sources' old bytes, aliased or not, and nothing but
slot `d` changes; on unequal lengths `ERR_LENMISMATCH(b)` and no other effect (R111). -/
def Obligations.VaddResultAndFrame : Prop :=
  ∀ (d a b : Slot) (s : State),
    decode (packFields ⟨0x20, slotByte d, slotByte a, slotByte b, 0⟩) = .ok (.vadd d a b) ∧
    (s.len a = s.len b → ∃ t, exec (.vadd d a b) s = .next t ∧ t.len d = s.len a ∧
      (∀ i, i < s.len a → t.byte d i = s.byte a i ^^^ s.byte b i) ∧ ZeroBehind t d ∧ OnlySlot s t d ∧ Succeeded s t) ∧
    (s.len a ≠ s.len b → ∃ t, exec (.vadd d a b) s = .next t ∧ Reported s t .lenMismatch (BitVec.ofNat 32 b.val))

/-- VMUL, the whole rule: its word; it completes in every state; each old byte of the source times the scalar; scalar
0x00 fills with zero, scalar 0x01 copies (R112). -/
def Obligations.VmulResultAndFrame : Prop :=
  ∀ (d a : Slot) (x : Reg) (s : State),
    decode (packFields ⟨0x21, slotByte d, slotByte a, regByte x, 0⟩) = .ok (.vmul d a x) ∧
    ∃ t, exec (.vmul d a x) s = .next t ∧ t.len d = s.len a ∧
      (∀ i, i < s.len a → t.byte d i = gfMul s.tables (s.byte a i) (s.e x)) ∧
      (s.e x = 0 → t.buf d = List.replicate (s.len a) 0) ∧
      (s.tables = Tables.built → s.e x = 1 → t.buf d = s.buf a) ∧
      ZeroBehind t d ∧ OnlySlot s t d ∧ Succeeded s t

/-- VZERO, the whole rule: its word; it completes in every state; the bytes 0 .. len-1 become 0x00, the length stays,
no other byte changes (R113). -/
def Obligations.VzeroResultAndFrame : Prop :=
  ∀ (d : Slot) (s : State),
    decode (packFields ⟨0x22, slotByte d, 0, 0, 0⟩) = .ok (.vzero d) ∧
    ∃ t, exec (.vzero d) s = .next t ∧ t.len d = s.len d ∧
      (∀ i, i < s.len d → t.byte d i = 0) ∧ (∀ i, s.len d ≤ i → t.byte d i = s.byte d i) ∧
      OutsideSlot s t d ∧ Succeeded s t

/-! ### Polynomial Evaluator (R120 to R125) -/

/-- PEVAL, the whole rule: its word; it completes in every state; `e[d] <- horner(Buf(a), e[x])`; an empty slot gives
0x00 (R122). -/
def Obligations.PevalResultAndFrame : Prop :=
  ∀ (d : Reg) (a : Slot) (x : Reg) (s : State),
    decode (packFields ⟨0x30, regByte d, slotByte a, regByte x, 0⟩) = .ok (.peval d a x) ∧
    ∃ t, exec (.peval d a x) s = .next t ∧
      t.e d = horner s.tables (s.buf a) (s.e x) ∧ (s.len a = 0 → t.e d = 0) ∧ OnlyReg s t d ∧ Succeeded s t

/-- PEVALV, the whole rule: its word; on a legal block the destination takes the common length and at every position
holds the value of that position's own polynomial; else the first failing check in order is reported, with the
value R196 gives, and there is no other effect (R123). -/
def Obligations.PevalvResultAndRejections : Prop :=
  ∀ (d a : Slot) (x : Reg) (k : Nat) (s : State),
    (k < 2 ^ 32 → decode (packFields ⟨0x31, slotByte d, slotByte a, regByte x, numWord k⟩) = .ok (.pevalv d a x k)) ∧
    (1 ≤ k → a.val + k ≤ 256 → ¬ (a.val ≤ d.val ∧ d.val ≤ a.val + k - 1) →
    (∀ j, j < k → s.len (slotAt a j) = s.len a) →
      ∃ t, exec (.pevalv d a x k) s = .next t ∧ t.len d = s.len a ∧
        (∀ p, p < s.len a →
          t.byte d p = horner s.tables ((List.range k).map fun j => s.byte (slotAt a j) p) (s.e x)) ∧
        ZeroBehind t d ∧ OnlySlot s t d ∧ Succeeded s t) ∧
    (k = 0 ∨ a.val + k > 256 →
      ∃ t, exec (.pevalv d a x k) s = .next t ∧ Reported s t .range (BitVec.ofNat 32 k)) ∧
    (1 ≤ k → a.val + k ≤ 256 → a.val ≤ d.val → d.val ≤ a.val + k - 1 →
      ∃ t, exec (.pevalv d a x k) s = .next t ∧ Reported s t .aliased (BitVec.ofNat 32 d.val)) ∧
    (∀ j, 1 ≤ k → a.val + k ≤ 256 → ¬ (a.val ≤ d.val ∧ d.val ≤ a.val + k - 1) → 1 ≤ j → j < k →
      s.len (slotAt a j) ≠ s.len a → (∀ i, 1 ≤ i → i < j → s.len (slotAt a i) = s.len a) →
        ∃ t, exec (.pevalv d a x k) s = .next t ∧ Reported s t .lenMismatch (BitVec.ofNat 32 (a.val + j)))

/-- PSHARE, the whole rule: its word; on a legal block and a nonzero x-coordinate byte 0 is the x-coordinate, the payload
is the value of each position's polynomial, the length is one more than the secret's; else the first failing check
in order is reported, the zero x-coordinate last, and there is no other effect (R124). -/
def Obligations.PshareResultAndRejections : Prop :=
  ∀ (d a : Slot) (x : Reg) (k : Nat) (s : State),
    (k < 2 ^ 32 → decode (packFields ⟨0x32, slotByte d, slotByte a, regByte x, numWord k⟩) = .ok (.pshare d a x k)) ∧
    (1 ≤ k → a.val + k ≤ 256 → s.len a + 1 ≤ s.maxLen.toNat → ¬ (a.val ≤ d.val ∧ d.val ≤ a.val + k - 1) →
    (∀ j, j < k → s.len (slotAt a j) = s.len a) → s.e x ≠ 0 →
      ∃ t, exec (.pshare d a x k) s = .next t ∧ t.len d = s.len a + 1 ∧ t.byte d 0 = s.e x ∧
        (∀ p, p < s.len a →
          t.byte d (p + 1) = horner s.tables ((List.range k).map fun j => s.byte (slotAt a j) p) (s.e x)) ∧
        ZeroBehind t d ∧ OnlySlot s t d ∧ Succeeded s t) ∧
    (k = 0 ∨ a.val + k > 256 ∨ s.len a + 1 > s.maxLen.toNat →
      ∃ t, exec (.pshare d a x k) s = .next t ∧ Reported s t .range (BitVec.ofNat 32 k)) ∧
    (1 ≤ k → a.val + k ≤ 256 → s.len a + 1 ≤ s.maxLen.toNat → a.val ≤ d.val → d.val ≤ a.val + k - 1 →
      ∃ t, exec (.pshare d a x k) s = .next t ∧ Reported s t .aliased (BitVec.ofNat 32 d.val)) ∧
    (∀ j, 1 ≤ k → a.val + k ≤ 256 → s.len a + 1 ≤ s.maxLen.toNat →
      ¬ (a.val ≤ d.val ∧ d.val ≤ a.val + k - 1) → 1 ≤ j → j < k →
      s.len (slotAt a j) ≠ s.len a → (∀ i, 1 ≤ i → i < j → s.len (slotAt a i) = s.len a) →
        ∃ t, exec (.pshare d a x k) s = .next t ∧ Reported s t .lenMismatch (BitVec.ofNat 32 (a.val + j))) ∧
    (1 ≤ k → a.val + k ≤ 256 → s.len a + 1 ≤ s.maxLen.toNat → ¬ (a.val ≤ d.val ∧ d.val ≤ a.val + k - 1) →
      (∀ j, j < k → s.len (slotAt a j) = s.len a) → s.e x = 0 →
        ∃ t, exec (.pshare d a x k) s = .next t ∧ Reported s t .zeroX 0)

/-- The scalar Horner form: the constant term at 0, the XOR of all coefficients at 1, and a single coefficient at
every point (R120). -/
def Obligations.HornerAtZeroAtOneAndOfOneCoefficient : Prop :=
  ∀ (q : List Byte), horner Tables.built q 0 = q.headD 0 ∧ horner Tables.built q 1 = q.foldl gfAdd 0 ∧
    ∀ c x, horner Tables.built [c] x = c

/-- `horner_vec` evaluates each position's own polynomial: for buffers of one length, byte `p` of the result is the
scalar `horner` of the bytes at `p`, lowest degree first (R121). -/
def Obligations.VectorHornerIsScalarHornerAtEachPosition : Prop :=
  ∀ (t : Tables) (bufs : List (List Byte)) (top : List Byte) (x : Byte) (p : Nat),
    (∀ q ∈ bufs, q.length = top.length) → p < top.length →
      (hornerVec t top bufs.reverse x).length = top.length ∧
      (hornerVec t top bufs.reverse x).getD p 0 = horner t ((bufs ++ [top]).map fun q => q.getD p 0) x

/-! ### Interpolator (R135 to R141) -/

/-- Order does not matter: permuting the pairs leaves the result unchanged (R136 (a)). -/
def Obligations.LagrangeIgnoresTheOrderOfPairs : Prop :=
  ∀ pairs pairs' : List (Byte × Byte), pairs.Perm pairs' → (pairs.map Prod.fst).Nodup →
    lagrange0 Tables.built (pairs.map Prod.fst) (pairs.map Prod.snd) =
      lagrange0 Tables.built (pairs'.map Prod.fst) (pairs'.map Prod.snd)

/-- Reconstruction: values of a polynomial with at most as many coefficients as there are distinct points give
back its constant term, 0x00 if it has none (R136 (b)). -/
def Obligations.LagrangeRecoversTheConstantTerm : Prop :=
  ∀ xs q : List Byte, xs.Nodup → q.length ≤ xs.length →
    lagrange0 Tables.built xs (xs.map (horner Tables.built q)) = q.headD 0

/-- A pair with x-coordinate 0x00 gives its own y value (R136 (c)). -/
def Obligations.LagrangeAtAZeroCoordinate : Prop :=
  ∀ (xs ys : List Byte) (i : Nat), xs.Nodup → ys.length = xs.length → i < xs.length → xs.getD i 1 = 0 →
    lagrange0 Tables.built xs ys = ys.getD i 0

/-- LAGR0, the whole rule: its word; on enough pairs of equal number with distinct x-coordinates
`e[d] <- lagrange0(Buf(a), Buf(b))`, and the scratch, zero as it always is between commands (R32), is zero again; else
the first failing check in order is reported and there is no other effect (R138). -/
def Obligations.Lagr0ResultAndRejections : Prop :=
  ∀ (d : Reg) (a b : Slot) (s : State),
    decode (packFields ⟨0x40, regByte d, slotByte a, slotByte b, 0⟩) = .ok (.lagr0 d a b) ∧
    (s.xs = Scratch.clear → s.ys = Scratch.clear → 2 ≤ s.len a → s.len b = s.len a → (s.buf a).Nodup →
      ∃ t, exec (.lagr0 d a b) s = .next t ∧ t.e d = lagrange0 s.tables (s.buf a) (s.buf b) ∧
        OnlyReg s t d ∧ Succeeded s t) ∧
    (s.len a < 2 → ∃ t, exec (.lagr0 d a b) s = .next t ∧ Reported s t .tooFew (BitVec.ofNat 32 (s.len a))) ∧
    (2 ≤ s.len a → s.len b ≠ s.len a →
      ∃ t, exec (.lagr0 d a b) s = .next t ∧ Reported s t .lenMismatch (BitVec.ofNat 32 b.val)) ∧
    (∀ i j, 2 ≤ s.len a → s.len b = s.len a → i < j → j < s.len a → s.byte a i = s.byte a j →
      (∀ i' j', i' < j' → j' < j → s.byte a i' ≠ s.byte a j') →
        ∃ t, exec (.lagr0 d a b) s = .next t ∧ Reported s t .dupX (BitVec.ofNat 32 j))

/-- COMBINE, the whole rule: its word; on a legal set of shares, at every payload position the interpolation of the
shares' bytes there, one byte shorter than a share, shares as before and the scratch, zero as it always is between
commands (R32), zero again; else the first failing check in
order (conflict C3: too short before unequal) is reported and there is no other effect (R139). -/
def Obligations.CombineResultAndRejections : Prop :=
  ∀ (d a : Slot) (k : Nat) (s : State),
    (k < 2 ^ 32 → decode (packFields ⟨0x41, slotByte d, slotByte a, 0, numWord k⟩) = .ok (.combine d a k)) ∧
    (s.xs = Scratch.clear → s.ys = Scratch.clear →
    2 ≤ k → a.val + k ≤ 256 → ¬ (a.val ≤ d.val ∧ d.val ≤ a.val + k - 1) → 2 ≤ s.len a →
    (∀ j, j < k → s.len (slotAt a j) = s.len a) →
    ((List.range k).map fun j => s.byte (slotAt a j) 0).Nodup →
      ∃ t, exec (.combine d a k) s = .next t ∧ t.len d = s.len a - 1 ∧
        (∀ p, 1 ≤ p → p < s.len a → t.byte d (p - 1) =
          lagrange0 s.tables ((List.range k).map fun j => s.byte (slotAt a j) 0)
            ((List.range k).map fun j => s.byte (slotAt a j) p)) ∧
        ZeroBehind t d ∧ OnlySlot s t d ∧ Succeeded s t) ∧
    (a.val + k > 256 → ∃ t, exec (.combine d a k) s = .next t ∧ Reported s t .range (BitVec.ofNat 32 k)) ∧
    (a.val + k ≤ 256 → 1 ≤ k → a.val ≤ d.val → d.val ≤ a.val + k - 1 →
      ∃ t, exec (.combine d a k) s = .next t ∧ Reported s t .aliased (BitVec.ofNat 32 d.val)) ∧
    (a.val + k ≤ 256 → ¬ (1 ≤ k ∧ a.val ≤ d.val ∧ d.val ≤ a.val + k - 1) → k < 2 →
      ∃ t, exec (.combine d a k) s = .next t ∧ Reported s t .tooFew (BitVec.ofNat 32 k)) ∧
    (∀ j, a.val + k ≤ 256 → ¬ (a.val ≤ d.val ∧ d.val ≤ a.val + k - 1) → 2 ≤ k → j < k →
      s.len (slotAt a j) < 2 → (∀ i, i < j → 2 ≤ s.len (slotAt a i)) →
        ∃ t, exec (.combine d a k) s = .next t ∧ Reported s t .short (BitVec.ofNat 32 (a.val + j))) ∧
    (∀ j, a.val + k ≤ 256 → ¬ (a.val ≤ d.val ∧ d.val ≤ a.val + k - 1) → 2 ≤ k →
      (∀ i, i < k → 2 ≤ s.len (slotAt a i)) → 1 ≤ j → j < k → s.len (slotAt a j) ≠ s.len a →
      (∀ i, 1 ≤ i → i < j → s.len (slotAt a i) = s.len a) →
        ∃ t, exec (.combine d a k) s = .next t ∧ Reported s t .lenMismatch (BitVec.ofNat 32 (a.val + j))) ∧
    (∀ i j, a.val + k ≤ 256 → ¬ (a.val ≤ d.val ∧ d.val ≤ a.val + k - 1) → 2 ≤ k → 2 ≤ s.len a →
      (∀ i', i' < k → s.len (slotAt a i') = s.len a) → i < j → j < k →
      s.byte (slotAt a i) 0 = s.byte (slotAt a j) 0 →
      (∀ i' j', i' < j' → j' < j → s.byte (slotAt a i') 0 ≠ s.byte (slotAt a j') 0) →
        ∃ t, exec (.combine d a k) s = .next t ∧ Reported s t .dupX (BitVec.ofNat 32 (a.val + j)))

/-- Any set of shares with distinct x-coordinates that lie on polynomials with at most as many coefficients as
there are shares combines to the exact constant terms, the secret (R136 (b), R139). -/
def Obligations.CombineRecoversTheSecret : Prop :=
  ∀ (d a : Slot) (k : Nat) (s : State) (coeffs : Nat → List Byte), s.tables = Tables.built →
    2 ≤ k → a.val + k ≤ 256 → ¬ (a.val ≤ d.val ∧ d.val ≤ a.val + k - 1) → 2 ≤ s.len a →
    (∀ j, j < k → s.len (slotAt a j) = s.len a) →
    ((List.range k).map fun j => s.byte (slotAt a j) 0).Nodup →
    (∀ p, p + 1 < s.len a → (coeffs p).length ≤ k ∧
      ∀ j, j < k → s.byte (slotAt a j) (p + 1) = horner Tables.built (coeffs p) (s.byte (slotAt a j) 0)) →
      ∃ t, exec (.combine d a k) s = .next t ∧
        t.buf d = (List.range (s.len a - 1)).map fun p => (coeffs p).headD 0

/-! ### Data movement (R155 to R158) -/

/-- LDI, the whole rule: its word; it completes in every state; `e[d] <- cmd.n[7:0]` (R155). -/
def Obligations.LdiResultAndFrame : Prop :=
  ∀ (d : Reg) (imm : Byte) (s : State),
    decode (packFields ⟨0x50, regByte d, 0, 0, imm.setWidth 32⟩) = .ok (.ldi d imm) ∧
    ∃ t, exec (.ldi d imm) s = .next t ∧ t.e d = imm ∧ OnlyReg s t d ∧ Succeeded s t

/-- LDB, the whole rule: its word; the byte at the offset below the length; at or past it `ERR_RANGE(cmd.n)` and no other
effect (R156). -/
def Obligations.LdbResultAndRejection : Prop :=
  ∀ (d : Reg) (a : Slot) (off : Nat) (s : State),
    (off < 2 ^ 32 → decode (packFields ⟨0x51, regByte d, slotByte a, 0, numWord off⟩) = .ok (.ldb d a off)) ∧
    (off < s.len a → ∃ t, exec (.ldb d a off) s = .next t ∧ t.e d = s.byte a off ∧ OnlyReg s t d ∧ Succeeded s t) ∧
    (s.len a ≤ off → ∃ t, exec (.ldb d a off) s = .next t ∧ Reported s t .range (BitVec.ofNat 32 off))

/-- STB, the whole rule: its word; the byte at the offset below the length and no other byte, length or slot; at or past
it `ERR_RANGE(cmd.n)` and no other effect (R157). -/
def Obligations.StbResultAndRejection : Prop :=
  ∀ (r : Reg) (a : Slot) (off : Nat) (s : State),
    (off < 2 ^ 32 → decode (packFields ⟨0x52, regByte r, slotByte a, 0, numWord off⟩) = .ok (.stb r a off)) ∧
    (off < s.len a → ∃ t, exec (.stb r a off) s = .next t ∧ t.byte a off = s.e r ∧ t.len a = s.len a ∧
      (∀ i, i ≠ off → t.byte a i = s.byte a i) ∧ OutsideSlot s t a ∧ Succeeded s t) ∧
    (s.len a ≤ off → ∃ t, exec (.stb r a off) s = .next t ∧ Reported s t .range (BitVec.ofNat 32 off))

/-- SETLEN, the whole rule: its word; up to `MAXLEN` the length; the bytes cut off become 0x00, all other bytes stay; a slot
that grows grows with zero bytes by the zero-tail invariant (R26); above `MAXLEN` `ERR_RANGE(cmd.n)` and no other
effect (R158). -/
def Obligations.SetlenResultAndRejection : Prop :=
  ∀ (a : Slot) (len : Nat) (s : State),
    (len < 2 ^ 32 → decode (packFields ⟨0x53, 0, slotByte a, 0, numWord len⟩) = .ok (.setlen a len)) ∧
    (len ≤ s.maxLen.toNat → ∃ t, exec (.setlen a len) s = .next t ∧ t.len a = len ∧
      (∀ i, len ≤ i → i < s.len a → t.byte a i = 0) ∧
      (∀ i, i < len ∨ s.len a ≤ i → t.byte a i = s.byte a i) ∧
      (s.Inv → s.len a ≤ len → t.buf a = s.buf a ++ List.replicate (len - s.len a) 0) ∧
      OutsideSlot s t a ∧ Succeeded s t) ∧
    (s.maxLen.toNat < len → ∃ t, exec (.setlen a len) s = .next t ∧ Reported s t .range (BitVec.ofNat 32 len))

/-! ### The invariant, reset and the host port (R26 to R35, R57, R220 to R222) -/

/-- Every step of every agent keeps the invariant: canonical memory, zero tail, lengths within `MAXLEN`, zero scratch,
built tables once ready, known codes with the flags they imply (R20, R25, R26, R28, R32, R191). -/
def Obligations.EveryStepKeepsTheInvariant : Prop :=
  ∀ s t : State, s.Inv → step s = .next t → t.Inv

/-- The state after reset meets the invariant. -/
def Obligations.ResetMeetsTheInvariant : Prop :=
  State.reset.Inv

/-- Zero tail, in the words of R26: it holds after reset; in a state that meets the invariant every byte at or behind a
slot's length is 0x00; and so it is after any step from there. -/
def Obligations.ZeroTailAtEveryPoint : Prop :=
  (∀ b i, State.reset.len b ≤ i → State.reset.byte b i = 0) ∧
  (∀ s : State, s.Inv → ∀ b i, s.len b ≤ i → s.byte b i = 0) ∧
  ∀ s t : State, s.Inv → step s = .next t → ∀ b i, t.len b ≤ i → t.byte b i = 0

/-- What reset leaves, and that the first step after it builds the tables and touches nothing else (R35; no move of
the host waits then, log 6). -/
def Obligations.ResetState : Prop :=
  (∀ r, State.reset.e r = 0) ∧ (∀ b, State.reset.len b = 0) ∧ (∀ b i, State.reset.byte b i = 0) ∧
  State.reset.ready = false ∧ State.reset.fatal = false ∧ State.reset.esticky = false ∧
  State.reset.errcode = 0 ∧ State.reset.errinfo = 0 ∧ State.reset.csr 0 = 0 ∧ State.reset.pc = 0 ∧
  State.reset.csr 2 = Config.maxLen ∧
  (∀ j : Fin 256, State.reset.xs.get j = 0 ∧ State.reset.ys.get j = 0) ∧
  ∃ t, step State.reset = .next t ∧ t.tables = Tables.built ∧ t.ready = true ∧ t.csr 0 = 1 ∧
    SameData State.reset t ∧ SameStatus State.reset t ∧ t.maxLen = State.reset.maxLen

/-- `HostReset`, whenever the host moves (at a ready engine, stopped or not, always; before the tables are built by the
free choice of log 7): every register, length, byte, scratch entry, the status and the cause become zero and `MAXLEN`
stays (R220); the host goes on with its moves (log 11). -/
def Obligations.HostResetWipesTheEngine : Prop :=
  ∀ (s : State) (rest : List HostAction), s.host = .port .reset :: rest → s.initialiserMoves = false →
    ∃ t, step s = .next t ∧ (∀ r, t.e r = 0) ∧ (∀ b, t.len b = 0) ∧ (∀ b i, t.byte b i = 0) ∧
      t.xs = Scratch.clear ∧ t.ys = Scratch.clear ∧ t.csr 0 = 0 ∧ t.csr 1 = 0 ∧ t.pc = 0 ∧
      t.maxLen = s.maxLen ∧ t.host = rest

/-- `HostWriteBuf(s, q)` with a sequence of at most `MAXLEN` bytes, whenever the host moves (log 7), so also while
`FATAL = 1` or `READY = 0`: the slot then holds `q` with zeros behind it, and nothing else changes but the model's
counter; a longer one is no move of the port (R57; the refusal is log 12). -/
def Obligations.HostWriteBufSetsTheSlot : Prop :=
  ∀ (s : State) (b : Slot) (q : List Byte) (rest : List HostAction),
    s.host = .port (.writeBuf b q) :: rest → s.initialiserMoves = false →
      (q.length ≤ s.maxLen.toNat → ∃ t, step s = .next t ∧ t.buf b = q ∧ ZeroBehind t b ∧
        OnlySlot (s.afterChoice.withHost rest) t b ∧ SameStatus s t) ∧
      (s.maxLen.toNat < q.length → step s = .refused .noSuchHostMove)

/-- The host's reads, whenever the host moves (log 7), change nothing of the engine and hand back what they name (R54,
R57). -/
def Obligations.HostReadsChangeNothing : Prop :=
  ∀ (s : State) (act : PortAction) (rest : List HostAction) (b : Slot) (r : Reg) (k : Nat),
    s.host = .port act :: rest → s.initialiserMoves = false → act = .readBuf b ∨ act = .readReg r ∨ act = .readCsr k →
      step s = .next (s.afterChoice.withHost rest) ∧
      (act = .readBuf b → s.hostGets = some (.buf (s.len b) (s.buf b))) ∧
      (act = .readReg r → s.hostGets = some (.reg (s.e r))) ∧
      (act = .readCsr k → s.hostGets = some (.csr (s.csr k)))

/-- When the host moves: at a ready engine always, and before the tables are built at the latest in the second step,
for then either the port action is made now, or the initialiser's step comes first, touches nothing else, and leaves the
action waiting at a ready engine (R57, R222; the order is the free choice of log 7, whose counter alone also moves). -/
def Obligations.PortActionWaitsAtMostOneStep : Prop :=
  ∀ (s : State) (act : PortAction) (rest : List HostAction), s.host = .port act :: rest →
    (s.ready = true → s.initialiserMoves = false ∧ step s = (s.withHost rest).portAction act) ∧
    (s.ready = false →
      (s.initialiserMoves = false ∧ step s = (s.afterChoice.withHost rest).portAction act) ∨
      (s.initialiserMoves = true ∧ ∃ t, step s = .next t ∧ t.tables = Tables.built ∧ t.ready = true ∧ SameData s t ∧
        SameStatus s t ∧ t.maxLen = s.maxLen ∧ t.host = s.host ∧ t.initialiserMoves = false))

/-- The control registers as the host reads them: each field of `STATUS` at its bits, the reserved bits 0, `ERRINFO`,
`MAXLEN`, and 0 for every other number (R27 to R30). -/
def Obligations.ControlRegisterLayout : Prop :=
  ∀ s : State,
    (s.csr 0).getLsbD 0 = s.ready ∧ (s.csr 0).getLsbD 1 = s.fatal ∧ (s.csr 0).getLsbD 2 = s.esticky ∧
    (s.csr 0).extractLsb' 3 5 = 0 ∧ (s.csr 0).extractLsb' 8 8 = s.errcode ∧ (s.csr 0).extractLsb' 16 16 = 0 ∧
    s.csr 1 = s.errinfo ∧ s.csr 2 = s.maxLen ∧ ∀ k, 2 < k → s.csr k = 0

/-! ### The host's procedures (R166, R173, R174) -/

/-- The host's checks around the engine: exactly a non-empty secret that fits, 2 <= parts <= 255 and
2 <= threshold <= parts may be split (R166); adding the checksum and validating it gives the share back, and
whatever validates is a share with its own checksum (R173, R174). -/
def Obligations.HostChecksAroundTheEngine : Prop :=
  (∀ (maxLen : Word32) (secret : List Byte) (parts threshold : Nat),
    splitCheck maxLen secret parts threshold = none ↔
      secret ≠ [] ∧ 2 ≤ parts ∧ parts ≤ 255 ∧ 2 ≤ threshold ∧ threshold ≤ parts ∧ secret.length + 1 ≤ maxLen.toNat) ∧
  (∀ share : List Byte, validateIntegrityCheck (addIntegrityCheck share) = .ok share) ∧
  (∀ extended share : List Byte, validateIntegrityCheck extended = .ok share → extended = addIntegrityCheck share)

/-- The host's wipe of a slot, at a ready engine, stopped or not: after its three moves the slot is empty, every byte of it
is 0x00, and nothing outside the slot has changed but the status (R169, R183, R194). That the host makes these three
moves is the model's choice (log 19). -/
def Obligations.WipeEmptiesTheSlotAlsoAfterAFatalStop : Prop :=
  ∀ (s : State) (b : Slot), s.ready = true →
    ∃ t, Sys2Proof.core.run 3 (s.withHost (wipeSlots [b])) = .next t ∧ t.len b = 0 ∧
      (∀ i, i < t.maxLen.toNat → t.byte b i = 0) ∧ OutsideSlot (s.withHost []) t b
end

