-- ==== Sys2Proof/Laws/Decode.lean ====
section
/-! SUPPORT. The small laws of the fields of a command word: packing and unpacking, and each operand's field (R71, R73, R74). -/

namespace Sys2Proof

/-- Unpacking undoes packing: no field overlaps another (R71). -/
@[simp] theorem fieldsOf_packFields (f : Fields) : fieldsOf (packFields f) = f := by
  obtain ⟨op, a, b, c, n⟩ := f
  simp only [fieldsOf, packFields, Fields.mk.injEq]
  refine ⟨?_, ?_, ?_, ?_, ?_⟩ <;> ext i hi <;>
    simp only [BitVec.getElem_extractLsb', BitVec.getLsbD_append] <;> grind

/-- Packing undoes unpacking: the fields are the whole word (R71). -/
@[simp] theorem packFields_fieldsOf (w : CmdWord) : packFields (fieldsOf w) = w := by
  ext i hi
  simp only [fieldsOf, packFields]
  grind

@[simp] theorem regField_regByte (r : Reg) : regField (regByte r) = .ok r := by
  have h : r.val < 256 := Nat.lt_trans r.isLt (by decide)
  simp [regField, regByte, Nat.mod_eq_of_lt h]

@[simp] theorem slotField_slotByte (b : Slot) : slotField (slotByte b) = b := by
  simp [slotField, slotByte]

@[simp] theorem zeroField_zero : zeroField 0#8 = .ok () := rfl
@[simp] theorem zeroNumber_zero : zeroNumber 0#32 = .ok () := rfl

@[simp] theorem immField_setWidth (v : Byte) : immField (v.setWidth 32) = .ok v := by
  have h : (v.setWidth 32).toNat = v.toNat := by
    have : v.toNat < 4294967296 := Nat.lt_trans v.isLt (by decide)
    simpa using this
  have hv : v.toNat < 256 := v.isLt
  rw [immField, h, if_pos hv]
  simp

theorem toNat_numWord {k : Nat} (h : fitsN k = true) : (numWord k).toNat = k := by
  simpa [numWord] using Nat.mod_eq_of_lt (of_decide_eq_true h)

/-- A register field that is accepted is the field of that register (R73). -/
theorem regField_eq_ok {f : Byte} {r : Reg} : regField f = .ok r ↔ f = regByte r := by
  constructor
  · intro h
    unfold regField at h
    split at h
    · cases h; simp [regByte]
    · cases h
  · rintro rfl; simp

theorem slotByte_slotField (f : Byte) : slotByte (slotField f) = f := by simp [slotByte, slotField]

theorem zeroField_eq_ok {f : Byte} : zeroField f = .ok () ↔ f = 0 := by
  unfold zeroField; split <;> simp_all

theorem zeroNumber_eq_ok {n : Word32} : zeroNumber n = .ok () ↔ n = 0 := by
  unfold zeroNumber; split <;> simp_all

theorem immField_eq_ok {n : Word32} {v : Byte} : immField n = .ok v ↔ n = v.setWidth 32 := by
  constructor
  · intro h
    unfold immField at h
    split at h
    · rename_i hn
      cases h
      apply BitVec.eq_of_toNat_eq
      simp only [BitVec.toNat_setWidth]
      omega
    · cases h
  · rintro rfl; simp

theorem numWord_toNat (n : Word32) : numWord n.toNat = n := by simp [numWord]

theorem fitsN_toNat (n : Word32) : fitsN n.toNat = true := decide_eq_true n.isLt

end Sys2Proof
end

