-- ==== Sys2Proof/Laws/Memory.lean ====
section
/-! SUPPORT. The laws of the byte memory: read after write, frames, and that every operation keeps the canonical form (log 4). -/

namespace Sys2Proof.Machine

theorem cellKey_mod (b : Slot) (i : Nat) : cellKey b i % 256 = b.val := by
  unfold cellKey; omega

theorem cellKey_div (b : Slot) (i : Nat) : cellKey b i / 256 = i := by
  unfold cellKey; omega

/-- No two bytes of the buffer space share a key. -/
theorem cellKey_inj {b c : Slot} {i j : Nat} : cellKey b i = cellKey c j ↔ b = c ∧ i = j := by
  constructor
  · intro h
    have h1 := cellKey_mod b i; have h2 := cellKey_mod c j
    have h3 := cellKey_div b i; have h4 := cellKey_div c j
    rw [h] at h1 h3
    exact ⟨Fin.ext (h1.symm.trans h2), h3.symm.trans h4⟩
  · rintro ⟨rfl, rfl⟩; rfl

namespace Memory

@[simp] theorem read_nil (k : Nat) : Memory.read [] k = Memory.unlisted := rfl

theorem read_cell (c : Host.Cell) (m : Memory) (k : Nat) :
    Memory.read (c :: m) k = if c.1 = k then c.2 else m.read k := rfl

/-- A key no cell has reads as an unlisted one. -/
theorem read_of_absent {m : Memory} {k : Nat} (h : ∀ c ∈ m, c.1 ≠ k) : m.read k = Memory.unlisted := by
  induction m with
  | nil => rfl
  | cons c m ih =>
    rw [read_cell, if_neg (h c (by simp))]
    exact ih fun d hd => h d (by simp [hd])

/-- Dropping cells whose keys satisfy a condition leaves every other key as it was. -/
theorem read_filter (p : Nat → Bool) (m : Memory) (k : Nat) :
    Memory.read (m.filter fun c => p c.1) k = if p k then m.read k else Memory.unlisted := by
  induction m with
  | nil => simp
  | cons c m ih =>
    by_cases hc : c.1 = k
    · subst hc
      cases hp : p c.1 <;> simp [hp, read_cell, ih]
    · cases hp : p c.1 <;> simp [hp, read_cell, hc, ih]

theorem read_cons {k : Nat} {v : Byte} {m : Memory} (h : ∀ c ∈ m, c.1 ≠ k) (k' : Nat) :
    (Memory.cons k v m).read k' = if k' = k then v else m.read k' := by
  by_cases hv : v = Memory.unlisted
  · by_cases hk : k' = k
    · simp [Memory.cons, hv, hk, read_of_absent h]
    · simp [Memory.cons, hv, hk]
  · by_cases hk : k' = k
    · simp [Memory.cons, hv, hk, read_cell]
    · simp [Memory.cons, hv, hk, read_cell, Ne.symm hk]

theorem read_insert {k : Nat} {v : Byte} {m : Memory} (h : ∀ c ∈ m, c.1 ≠ k) (k' : Nat) :
    (Memory.insert m k v).read k' = if k' = k then v else m.read k' := by
  induction m with
  | nil => exact read_cons (by simp) k'
  | cons c m ih =>
    by_cases hc : c.1 < k
    · have ih := ih fun d hd => h d (by simp [hd])
      by_cases hk : k' = k
      · subst hk
        have : c.1 ≠ k' := h c (by simp)
        simp [Memory.insert, hc, read_cell, ih, this]
      · simp [Memory.insert, hc, read_cell, ih, hk]
    · simp only [Memory.insert, hc, if_false]
      exact read_cons h k'

/-- Read after write: the byte written at its key, every other key as before. -/
theorem read_write (m : Memory) (k : Nat) (v : Byte) (k' : Nat) :
    (m.write k v).read k' = if k' = k then v else m.read k' := by
  have habs : ∀ c ∈ m.filter (fun c => c.1 != k), c.1 ≠ k := by simp
  rw [Memory.write, read_insert habs, read_filter (fun n => n != k)]
  by_cases hk : k' = k <;> simp [hk]

/-- Read after zeroing part of a slot. -/
theorem read_zeroRange (m : Memory) (b : Slot) (lo hi : Nat) (c : Slot) (i : Nat) :
    (m.zeroRange b lo hi).read (cellKey c i) = if c = b ∧ lo ≤ i ∧ i < hi then 0 else m.read (cellKey c i) := by
  rw [Memory.zeroRange,
    read_filter (fun n => !(n % 256 == b.val && decide (lo ≤ n / 256) && decide (n / 256 < hi)))]
  simp only [cellKey_mod, cellKey_div]
  by_cases hc : c = b
  · subst hc
    by_cases h1 : lo ≤ i <;> by_cases h2 : i < hi <;> simp [h1, h2, Memory.unlisted]
  · have : ¬ c.val = b.val := fun h => hc (Fin.ext h)
    simp [hc, this]

/-- Read after writing a byte sequence. -/
theorem read_writeFrom (q : List Byte) (m : Memory) (b : Slot) (off : Nat) (c : Slot) (i : Nat) :
    (m.writeFrom b off q).read (cellKey c i) =
      if c = b ∧ off ≤ i ∧ i < off + q.length then q.getD (i - off) 0 else m.read (cellKey c i) := by
  induction q generalizing m off with
  | nil => simp only [Memory.writeFrom, List.length_nil]; rw [if_neg (by omega)]
  | cons v q ih =>
    rw [Memory.writeFrom, ih, read_write]
    simp only [cellKey_inj, List.length_cons]
    by_cases hc : c = b
    · by_cases hi : i = off
      · subst hi; simp [hc]
      · by_cases h1 : off + 1 ≤ i
        · have h2 : off ≤ i := by omega
          obtain ⟨n, hn⟩ : ∃ n, i - off = n + 1 := ⟨i - off - 1, by omega⟩
          have h3 : i - (off + 1) = n := by omega
          have h4 : (i < off + 1 + q.length) ↔ (i < off + (q.length + 1)) := by omega
          simp [hc, hi, h1, h2, hn, h3, h4]
        · have h2 : ¬ off ≤ i := by omega
          simp [hc, hi, h1, h2]
    · simp [hc]

/-! ### The canonical form -/

theorem wf_nil : Memory.wf [] := by simp [Memory.wf]

theorem wf_filter {m : Memory} (p : Host.Cell → Bool) (h : m.wf) : Memory.wf (m.filter p) :=
  ⟨h.1.filter _, fun c hc => h.2 c (List.mem_filter.mp hc).1⟩

theorem mem_cons_of {k : Nat} {v : Byte} {m : Memory} {c : Host.Cell} (h : c ∈ Memory.cons k v m) :
    (c = (k, v) ∧ v ≠ Memory.unlisted) ∨ c ∈ m := by
  unfold Memory.cons at h
  split at h
  · exact .inr h
  · rename_i hv
    rcases List.mem_cons.mp h with h | h
    · exact .inl ⟨h, hv⟩
    · exact .inr h

theorem mem_insert_of {k : Nat} {v : Byte} {m : Memory} {c : Host.Cell} (h : c ∈ Memory.insert m k v) :
    (c = (k, v) ∧ v ≠ Memory.unlisted) ∨ c ∈ m := by
  induction m with
  | nil => exact mem_cons_of h
  | cons d m ih =>
    unfold Memory.insert at h
    split at h
    · rcases List.mem_cons.mp h with h | h
      · exact .inr (by simp [h])
      · rcases ih h with h | h
        · exact .inl h
        · exact .inr (by simp [h])
    · exact mem_cons_of h

theorem wf_cons {k : Nat} {v : Byte} {m : Memory} (h : m.wf) (hk : ∀ c ∈ m, k < c.1) : (Memory.cons k v m).wf := by
  unfold Memory.cons
  split
  · exact h
  · rename_i hv
    refine ⟨List.pairwise_cons.mpr ⟨hk, h.1⟩, fun c hc => ?_⟩
    rcases List.mem_cons.mp hc with rfl | hc
    · exact hv
    · exact h.2 c hc

theorem wf_insert {k : Nat} {v : Byte} {m : Memory} (h : m.wf) (hk : ∀ c ∈ m, c.1 ≠ k) : (Memory.insert m k v).wf := by
  induction m with
  | nil => exact wf_cons wf_nil (by simp)
  | cons d m ih =>
    have hp := List.pairwise_cons.mp h.1
    have hm : Memory.wf m := ⟨hp.2, fun c hc => h.2 c (by simp [hc])⟩
    have ih := ih hm fun c hc => hk c (by simp [hc])
    unfold Memory.insert
    split
    · rename_i hd
      refine ⟨List.pairwise_cons.mpr ⟨fun c hc => ?_, ih.1⟩, fun c hc => ?_⟩
      · rcases mem_insert_of hc with ⟨rfl, -⟩ | hc
        · exact hd
        · exact hp.1 c hc
      · rcases List.mem_cons.mp hc with rfl | hc
        · exact h.2 c (by simp)
        · exact ih.2 c hc
    · rename_i hd
      have hdk : k < d.1 := by have := hk d (by simp); omega
      refine wf_cons h fun c hc => ?_
      rcases List.mem_cons.mp hc with rfl | hc
      · exact hdk
      · exact Nat.lt_trans hdk (hp.1 c hc)

/-- A write keeps the canonical form. -/
theorem wf_write {m : Memory} (k : Nat) (v : Byte) (h : m.wf) : (m.write k v).wf :=
  wf_insert (wf_filter _ h) (by simp)

/-- Zeroing keeps the canonical form. -/
theorem wf_zeroRange {m : Memory} (b : Slot) (lo hi : Nat) (h : m.wf) : (m.zeroRange b lo hi).wf := wf_filter _ h

/-- Writing a byte sequence keeps the canonical form. -/
theorem wf_writeFrom {m : Memory} (b : Slot) (off : Nat) (q : List Byte) (h : m.wf) : (m.writeFrom b off q).wf := by
  induction q generalizing m off with
  | nil => exact h
  | cons v q ih => exact ih (off + 1) (wf_write _ v h)

/-! ### Which cells an update leaves -/

theorem mem_write_of {m : Memory} {k : Nat} {v : Byte} {c : Host.Cell} (h : c ∈ m.write k v) :
    c = (k, v) ∨ (c ∈ m ∧ c.1 ≠ k) := by
  rcases mem_insert_of h with h | h
  · exact .inl h.1
  · rw [List.mem_filter] at h
    exact .inr ⟨h.1, by simpa using h.2⟩

theorem mem_zeroRange_of {m : Memory} {b : Slot} {lo hi : Nat} {c : Host.Cell} (h : c ∈ m.zeroRange b lo hi) :
    c ∈ m ∧ ¬ (c.1 % 256 = b.val ∧ lo ≤ c.1 / 256 ∧ c.1 / 256 < hi) := by
  rw [Memory.zeroRange, List.mem_filter] at h
  refine ⟨h.1, fun ⟨h1, h2, h3⟩ => ?_⟩
  simp [h1, h2, h3] at h

theorem mem_writeFrom_of {q : List Byte} {m : Memory} {b : Slot} {off : Nat} {c : Host.Cell} (h : c ∈ m.writeFrom b off q) :
    (∃ i, off ≤ i ∧ i < off + q.length ∧ c.1 = cellKey b i) ∨ c ∈ m := by
  induction q generalizing m off with
  | nil => exact .inr h
  | cons v q ih =>
    rcases ih h with ⟨i, h1, h2, h3⟩ | h
    · exact .inl ⟨i, by omega, by simp only [List.length_cons]; omega, h3⟩
    · rcases mem_write_of h with rfl | h
      · exact .inl ⟨off, by omega, by simp, rfl⟩
      · exact .inr h.1

end Memory

end Sys2Proof.Machine
end

