-- ==== Sys2Proof/Laws/State.lean ====
section
/-! SUPPORT. One lemma for each field and each update of State, so that no later proof unfolds a record update. -/

namespace Sys2Proof.Machine

/-! ### `State.setE` -/

@[simp] theorem State.setE_tables (s : State) (i : Reg) (v : Byte) : (s.setE i v).tables = s.tables := rfl
@[simp] theorem State.setE_regs (s : State) (i : Reg) (v : Byte) : (s.setE i v).regs = s.regs.set i.val v i.isLt := rfl
@[simp] theorem State.setE_lens (s : State) (i : Reg) (v : Byte) : (s.setE i v).lens = s.lens := rfl
@[simp] theorem State.setE_mem (s : State) (i : Reg) (v : Byte) : (s.setE i v).mem = s.mem := rfl
@[simp] theorem State.setE_ready (s : State) (i : Reg) (v : Byte) : (s.setE i v).ready = s.ready := rfl
@[simp] theorem State.setE_fatal (s : State) (i : Reg) (v : Byte) : (s.setE i v).fatal = s.fatal := rfl
@[simp] theorem State.setE_esticky (s : State) (i : Reg) (v : Byte) : (s.setE i v).esticky = s.esticky := rfl
@[simp] theorem State.setE_errcode (s : State) (i : Reg) (v : Byte) : (s.setE i v).errcode = s.errcode := rfl
@[simp] theorem State.setE_errinfo (s : State) (i : Reg) (v : Byte) : (s.setE i v).errinfo = s.errinfo := rfl
@[simp] theorem State.setE_maxLen (s : State) (i : Reg) (v : Byte) : (s.setE i v).maxLen = s.maxLen := rfl
@[simp] theorem State.setE_xs (s : State) (i : Reg) (v : Byte) : (s.setE i v).xs = s.xs := rfl
@[simp] theorem State.setE_ys (s : State) (i : Reg) (v : Byte) : (s.setE i v).ys = s.ys := rfl
@[simp] theorem State.setE_pc (s : State) (i : Reg) (v : Byte) : (s.setE i v).pc = s.pc := rfl
@[simp] theorem State.setE_host (s : State) (i : Reg) (v : Byte) : (s.setE i v).host = s.host := rfl
@[simp] theorem State.setE_freeCount (s : State) (i : Reg) (v : Byte) : (s.setE i v).freeCount = s.freeCount := rfl

/-! ### `State.setLen` -/

@[simp] theorem State.setLen_tables (s : State) (b : Slot) (n : Nat) : (s.setLen b n).tables = s.tables := rfl
@[simp] theorem State.setLen_regs (s : State) (b : Slot) (n : Nat) : (s.setLen b n).regs = s.regs := rfl
@[simp] theorem State.setLen_lens (s : State) (b : Slot) (n : Nat) : (s.setLen b n).lens = s.lens.set b.val n b.isLt := rfl
@[simp] theorem State.setLen_mem (s : State) (b : Slot) (n : Nat) : (s.setLen b n).mem = s.mem := rfl
@[simp] theorem State.setLen_ready (s : State) (b : Slot) (n : Nat) : (s.setLen b n).ready = s.ready := rfl
@[simp] theorem State.setLen_fatal (s : State) (b : Slot) (n : Nat) : (s.setLen b n).fatal = s.fatal := rfl
@[simp] theorem State.setLen_esticky (s : State) (b : Slot) (n : Nat) : (s.setLen b n).esticky = s.esticky := rfl
@[simp] theorem State.setLen_errcode (s : State) (b : Slot) (n : Nat) : (s.setLen b n).errcode = s.errcode := rfl
@[simp] theorem State.setLen_errinfo (s : State) (b : Slot) (n : Nat) : (s.setLen b n).errinfo = s.errinfo := rfl
@[simp] theorem State.setLen_maxLen (s : State) (b : Slot) (n : Nat) : (s.setLen b n).maxLen = s.maxLen := rfl
@[simp] theorem State.setLen_xs (s : State) (b : Slot) (n : Nat) : (s.setLen b n).xs = s.xs := rfl
@[simp] theorem State.setLen_ys (s : State) (b : Slot) (n : Nat) : (s.setLen b n).ys = s.ys := rfl
@[simp] theorem State.setLen_pc (s : State) (b : Slot) (n : Nat) : (s.setLen b n).pc = s.pc := rfl
@[simp] theorem State.setLen_host (s : State) (b : Slot) (n : Nat) : (s.setLen b n).host = s.host := rfl
@[simp] theorem State.setLen_freeCount (s : State) (b : Slot) (n : Nat) : (s.setLen b n).freeCount = s.freeCount := rfl

/-! ### `State.setByte` -/

@[simp] theorem State.setByte_tables (s : State) (b : Slot) (i : Nat) (v : Byte) : (s.setByte b i v).tables = s.tables := rfl
@[simp] theorem State.setByte_regs (s : State) (b : Slot) (i : Nat) (v : Byte) : (s.setByte b i v).regs = s.regs := rfl
@[simp] theorem State.setByte_lens (s : State) (b : Slot) (i : Nat) (v : Byte) : (s.setByte b i v).lens = s.lens := rfl
@[simp] theorem State.setByte_mem (s : State) (b : Slot) (i : Nat) (v : Byte) : (s.setByte b i v).mem = s.mem.write (cellKey b i) v := rfl
@[simp] theorem State.setByte_ready (s : State) (b : Slot) (i : Nat) (v : Byte) : (s.setByte b i v).ready = s.ready := rfl
@[simp] theorem State.setByte_fatal (s : State) (b : Slot) (i : Nat) (v : Byte) : (s.setByte b i v).fatal = s.fatal := rfl
@[simp] theorem State.setByte_esticky (s : State) (b : Slot) (i : Nat) (v : Byte) : (s.setByte b i v).esticky = s.esticky := rfl
@[simp] theorem State.setByte_errcode (s : State) (b : Slot) (i : Nat) (v : Byte) : (s.setByte b i v).errcode = s.errcode := rfl
@[simp] theorem State.setByte_errinfo (s : State) (b : Slot) (i : Nat) (v : Byte) : (s.setByte b i v).errinfo = s.errinfo := rfl
@[simp] theorem State.setByte_maxLen (s : State) (b : Slot) (i : Nat) (v : Byte) : (s.setByte b i v).maxLen = s.maxLen := rfl
@[simp] theorem State.setByte_xs (s : State) (b : Slot) (i : Nat) (v : Byte) : (s.setByte b i v).xs = s.xs := rfl
@[simp] theorem State.setByte_ys (s : State) (b : Slot) (i : Nat) (v : Byte) : (s.setByte b i v).ys = s.ys := rfl
@[simp] theorem State.setByte_pc (s : State) (b : Slot) (i : Nat) (v : Byte) : (s.setByte b i v).pc = s.pc := rfl
@[simp] theorem State.setByte_host (s : State) (b : Slot) (i : Nat) (v : Byte) : (s.setByte b i v).host = s.host := rfl
@[simp] theorem State.setByte_freeCount (s : State) (b : Slot) (i : Nat) (v : Byte) : (s.setByte b i v).freeCount = s.freeCount := rfl

/-! ### `State.zeroBytes` -/

@[simp] theorem State.zeroBytes_tables (s : State) (b : Slot) (lo hi : Nat) : (s.zeroBytes b lo hi).tables = s.tables := rfl
@[simp] theorem State.zeroBytes_regs (s : State) (b : Slot) (lo hi : Nat) : (s.zeroBytes b lo hi).regs = s.regs := rfl
@[simp] theorem State.zeroBytes_lens (s : State) (b : Slot) (lo hi : Nat) : (s.zeroBytes b lo hi).lens = s.lens := rfl
@[simp] theorem State.zeroBytes_mem (s : State) (b : Slot) (lo hi : Nat) : (s.zeroBytes b lo hi).mem = s.mem.zeroRange b lo hi := rfl
@[simp] theorem State.zeroBytes_ready (s : State) (b : Slot) (lo hi : Nat) : (s.zeroBytes b lo hi).ready = s.ready := rfl
@[simp] theorem State.zeroBytes_fatal (s : State) (b : Slot) (lo hi : Nat) : (s.zeroBytes b lo hi).fatal = s.fatal := rfl
@[simp] theorem State.zeroBytes_esticky (s : State) (b : Slot) (lo hi : Nat) : (s.zeroBytes b lo hi).esticky = s.esticky := rfl
@[simp] theorem State.zeroBytes_errcode (s : State) (b : Slot) (lo hi : Nat) : (s.zeroBytes b lo hi).errcode = s.errcode := rfl
@[simp] theorem State.zeroBytes_errinfo (s : State) (b : Slot) (lo hi : Nat) : (s.zeroBytes b lo hi).errinfo = s.errinfo := rfl
@[simp] theorem State.zeroBytes_maxLen (s : State) (b : Slot) (lo hi : Nat) : (s.zeroBytes b lo hi).maxLen = s.maxLen := rfl
@[simp] theorem State.zeroBytes_xs (s : State) (b : Slot) (lo hi : Nat) : (s.zeroBytes b lo hi).xs = s.xs := rfl
@[simp] theorem State.zeroBytes_ys (s : State) (b : Slot) (lo hi : Nat) : (s.zeroBytes b lo hi).ys = s.ys := rfl
@[simp] theorem State.zeroBytes_pc (s : State) (b : Slot) (lo hi : Nat) : (s.zeroBytes b lo hi).pc = s.pc := rfl
@[simp] theorem State.zeroBytes_host (s : State) (b : Slot) (lo hi : Nat) : (s.zeroBytes b lo hi).host = s.host := rfl
@[simp] theorem State.zeroBytes_freeCount (s : State) (b : Slot) (lo hi : Nat) : (s.zeroBytes b lo hi).freeCount = s.freeCount := rfl

/-! ### `State.setBuf` -/

@[simp] theorem State.setBuf_tables (s : State) (b : Slot) (q : List Byte) : (s.setBuf b q).tables = s.tables := rfl
@[simp] theorem State.setBuf_regs (s : State) (b : Slot) (q : List Byte) : (s.setBuf b q).regs = s.regs := rfl
@[simp] theorem State.setBuf_lens (s : State) (b : Slot) (q : List Byte) : (s.setBuf b q).lens = s.lens.set b.val q.length b.isLt := rfl
@[simp] theorem State.setBuf_mem (s : State) (b : Slot) (q : List Byte) : (s.setBuf b q).mem = (s.mem.zeroRange b q.length s.maxLen.toNat).writeFrom b 0 q := rfl
@[simp] theorem State.setBuf_ready (s : State) (b : Slot) (q : List Byte) : (s.setBuf b q).ready = s.ready := rfl
@[simp] theorem State.setBuf_fatal (s : State) (b : Slot) (q : List Byte) : (s.setBuf b q).fatal = s.fatal := rfl
@[simp] theorem State.setBuf_esticky (s : State) (b : Slot) (q : List Byte) : (s.setBuf b q).esticky = s.esticky := rfl
@[simp] theorem State.setBuf_errcode (s : State) (b : Slot) (q : List Byte) : (s.setBuf b q).errcode = s.errcode := rfl
@[simp] theorem State.setBuf_errinfo (s : State) (b : Slot) (q : List Byte) : (s.setBuf b q).errinfo = s.errinfo := rfl
@[simp] theorem State.setBuf_maxLen (s : State) (b : Slot) (q : List Byte) : (s.setBuf b q).maxLen = s.maxLen := rfl
@[simp] theorem State.setBuf_xs (s : State) (b : Slot) (q : List Byte) : (s.setBuf b q).xs = s.xs := rfl
@[simp] theorem State.setBuf_ys (s : State) (b : Slot) (q : List Byte) : (s.setBuf b q).ys = s.ys := rfl
@[simp] theorem State.setBuf_pc (s : State) (b : Slot) (q : List Byte) : (s.setBuf b q).pc = s.pc := rfl
@[simp] theorem State.setBuf_host (s : State) (b : Slot) (q : List Byte) : (s.setBuf b q).host = s.host := rfl
@[simp] theorem State.setBuf_freeCount (s : State) (b : Slot) (q : List Byte) : (s.setBuf b q).freeCount = s.freeCount := rfl

/-! ### `State.complete` -/

@[simp] theorem State.complete_tables (s : State) (code : Byte) (v : Word32) : (s.complete code v).tables = s.tables := rfl
@[simp] theorem State.complete_regs (s : State) (code : Byte) (v : Word32) : (s.complete code v).regs = s.regs := rfl
@[simp] theorem State.complete_lens (s : State) (code : Byte) (v : Word32) : (s.complete code v).lens = s.lens := rfl
@[simp] theorem State.complete_mem (s : State) (code : Byte) (v : Word32) : (s.complete code v).mem = s.mem := rfl
@[simp] theorem State.complete_ready (s : State) (code : Byte) (v : Word32) : (s.complete code v).ready = s.ready := rfl
@[simp] theorem State.complete_fatal (s : State) (code : Byte) (v : Word32) : (s.complete code v).fatal = (s.fatal || isFatalCode code) := rfl
@[simp] theorem State.complete_esticky (s : State) (code : Byte) (v : Word32) : (s.complete code v).esticky = (s.esticky || code != 0) := rfl
@[simp] theorem State.complete_errcode (s : State) (code : Byte) (v : Word32) : (s.complete code v).errcode = code := rfl
@[simp] theorem State.complete_errinfo (s : State) (code : Byte) (v : Word32) : (s.complete code v).errinfo = v := rfl
@[simp] theorem State.complete_maxLen (s : State) (code : Byte) (v : Word32) : (s.complete code v).maxLen = s.maxLen := rfl
@[simp] theorem State.complete_xs (s : State) (code : Byte) (v : Word32) : (s.complete code v).xs = s.xs := rfl
@[simp] theorem State.complete_ys (s : State) (code : Byte) (v : Word32) : (s.complete code v).ys = s.ys := rfl
@[simp] theorem State.complete_pc (s : State) (code : Byte) (v : Word32) : (s.complete code v).pc = if isFatalCode code then s.pc else s.pc + 1 := rfl
@[simp] theorem State.complete_host (s : State) (code : Byte) (v : Word32) : (s.complete code v).host = s.host := rfl
@[simp] theorem State.complete_freeCount (s : State) (code : Byte) (v : Word32) : (s.complete code v).freeCount = s.freeCount := rfl

/-! ### `State.initialise` -/

@[simp] theorem State.initialise_tables (s : State) : (s.initialise).tables = Tables.built := rfl
@[simp] theorem State.initialise_regs (s : State) : (s.initialise).regs = s.regs := rfl
@[simp] theorem State.initialise_lens (s : State) : (s.initialise).lens = s.lens := rfl
@[simp] theorem State.initialise_mem (s : State) : (s.initialise).mem = s.mem := rfl
@[simp] theorem State.initialise_ready (s : State) : (s.initialise).ready = true := rfl
@[simp] theorem State.initialise_fatal (s : State) : (s.initialise).fatal = s.fatal := rfl
@[simp] theorem State.initialise_esticky (s : State) : (s.initialise).esticky = s.esticky := rfl
@[simp] theorem State.initialise_errcode (s : State) : (s.initialise).errcode = s.errcode := rfl
@[simp] theorem State.initialise_errinfo (s : State) : (s.initialise).errinfo = s.errinfo := rfl
@[simp] theorem State.initialise_maxLen (s : State) : (s.initialise).maxLen = s.maxLen := rfl
@[simp] theorem State.initialise_xs (s : State) : (s.initialise).xs = s.xs := rfl
@[simp] theorem State.initialise_ys (s : State) : (s.initialise).ys = s.ys := rfl
@[simp] theorem State.initialise_pc (s : State) : (s.initialise).pc = s.pc := rfl
@[simp] theorem State.initialise_host (s : State) : (s.initialise).host = s.host := rfl
@[simp] theorem State.initialise_freeCount (s : State) : (s.initialise).freeCount = s.freeCount := rfl

/-! ### `State.withHost` -/

@[simp] theorem State.withHost_tables (s : State) (moves : List HostAction) : (s.withHost moves).tables = s.tables := rfl
@[simp] theorem State.withHost_regs (s : State) (moves : List HostAction) : (s.withHost moves).regs = s.regs := rfl
@[simp] theorem State.withHost_lens (s : State) (moves : List HostAction) : (s.withHost moves).lens = s.lens := rfl
@[simp] theorem State.withHost_mem (s : State) (moves : List HostAction) : (s.withHost moves).mem = s.mem := rfl
@[simp] theorem State.withHost_ready (s : State) (moves : List HostAction) : (s.withHost moves).ready = s.ready := rfl
@[simp] theorem State.withHost_fatal (s : State) (moves : List HostAction) : (s.withHost moves).fatal = s.fatal := rfl
@[simp] theorem State.withHost_esticky (s : State) (moves : List HostAction) : (s.withHost moves).esticky = s.esticky := rfl
@[simp] theorem State.withHost_errcode (s : State) (moves : List HostAction) : (s.withHost moves).errcode = s.errcode := rfl
@[simp] theorem State.withHost_errinfo (s : State) (moves : List HostAction) : (s.withHost moves).errinfo = s.errinfo := rfl
@[simp] theorem State.withHost_maxLen (s : State) (moves : List HostAction) : (s.withHost moves).maxLen = s.maxLen := rfl
@[simp] theorem State.withHost_xs (s : State) (moves : List HostAction) : (s.withHost moves).xs = s.xs := rfl
@[simp] theorem State.withHost_ys (s : State) (moves : List HostAction) : (s.withHost moves).ys = s.ys := rfl
@[simp] theorem State.withHost_pc (s : State) (moves : List HostAction) : (s.withHost moves).pc = s.pc := rfl
@[simp] theorem State.withHost_host (s : State) (moves : List HostAction) : (s.withHost moves).host = moves := rfl
@[simp] theorem State.withHost_freeCount (s : State) (moves : List HostAction) : (s.withHost moves).freeCount = s.freeCount := rfl

/-! ### `State.hostReset` -/

@[simp] theorem State.hostReset_tables (s : State) : (s.hostReset).tables = Tables.unbuilt s.freeCount := rfl
@[simp] theorem State.hostReset_regs (s : State) : (s.hostReset).regs = Vector.replicate 16 0 := rfl
@[simp] theorem State.hostReset_lens (s : State) : (s.hostReset).lens = Vector.replicate 256 0 := rfl
@[simp] theorem State.hostReset_mem (s : State) : (s.hostReset).mem = [] := rfl
@[simp] theorem State.hostReset_ready (s : State) : (s.hostReset).ready = false := rfl
@[simp] theorem State.hostReset_fatal (s : State) : (s.hostReset).fatal = false := rfl
@[simp] theorem State.hostReset_esticky (s : State) : (s.hostReset).esticky = false := rfl
@[simp] theorem State.hostReset_errcode (s : State) : (s.hostReset).errcode = 0 := rfl
@[simp] theorem State.hostReset_errinfo (s : State) : (s.hostReset).errinfo = 0 := rfl
@[simp] theorem State.hostReset_maxLen (s : State) : (s.hostReset).maxLen = s.maxLen := by cases s; rfl
@[simp] theorem State.hostReset_xs (s : State) : (s.hostReset).xs = Scratch.clear := rfl
@[simp] theorem State.hostReset_ys (s : State) : (s.hostReset).ys = Scratch.clear := rfl
@[simp] theorem State.hostReset_pc (s : State) : (s.hostReset).pc = 0 := rfl
@[simp] theorem State.hostReset_host (s : State) : (s.hostReset).host = s.host := by cases s; rfl
@[simp] theorem State.hostReset_freeCount (s : State) : (s.hostReset).freeCount = s.freeCount + 1 := rfl

/-! ### `State.afterChoice` and `State.interpolate` -/

@[simp] theorem State.afterChoice_tables (s : State) : s.afterChoice.tables = s.tables := by unfold State.afterChoice; split <;> rfl
@[simp] theorem State.afterChoice_regs (s : State) : s.afterChoice.regs = s.regs := by unfold State.afterChoice; split <;> rfl
@[simp] theorem State.afterChoice_lens (s : State) : s.afterChoice.lens = s.lens := by unfold State.afterChoice; split <;> rfl
@[simp] theorem State.afterChoice_mem (s : State) : s.afterChoice.mem = s.mem := by unfold State.afterChoice; split <;> rfl
@[simp] theorem State.afterChoice_ready (s : State) : s.afterChoice.ready = s.ready := by unfold State.afterChoice; split <;> rfl
@[simp] theorem State.afterChoice_fatal (s : State) : s.afterChoice.fatal = s.fatal := by unfold State.afterChoice; split <;> rfl
@[simp] theorem State.afterChoice_esticky (s : State) : s.afterChoice.esticky = s.esticky := by unfold State.afterChoice; split <;> rfl
@[simp] theorem State.afterChoice_errcode (s : State) : s.afterChoice.errcode = s.errcode := by unfold State.afterChoice; split <;> rfl
@[simp] theorem State.afterChoice_errinfo (s : State) : s.afterChoice.errinfo = s.errinfo := by unfold State.afterChoice; split <;> rfl
@[simp] theorem State.afterChoice_maxLen (s : State) : s.afterChoice.maxLen = s.maxLen := by unfold State.afterChoice; split <;> rfl
@[simp] theorem State.afterChoice_xs (s : State) : s.afterChoice.xs = s.xs := by unfold State.afterChoice; split <;> rfl
@[simp] theorem State.afterChoice_ys (s : State) : s.afterChoice.ys = s.ys := by unfold State.afterChoice; split <;> rfl
@[simp] theorem State.afterChoice_pc (s : State) : s.afterChoice.pc = s.pc := by unfold State.afterChoice; split <;> rfl
@[simp] theorem State.afterChoice_host (s : State) : s.afterChoice.host = s.host := by unfold State.afterChoice; split <;> rfl

@[simp] theorem State.interpolate_tables (s : State) (q : List Byte) (p : List (List Byte)) : (s.interpolate q p).2.tables = s.tables := by cases s; rfl
@[simp] theorem State.interpolate_regs (s : State) (q : List Byte) (p : List (List Byte)) : (s.interpolate q p).2.regs = s.regs := by cases s; rfl
@[simp] theorem State.interpolate_lens (s : State) (q : List Byte) (p : List (List Byte)) : (s.interpolate q p).2.lens = s.lens := by cases s; rfl
@[simp] theorem State.interpolate_mem (s : State) (q : List Byte) (p : List (List Byte)) : (s.interpolate q p).2.mem = s.mem := by cases s; rfl
@[simp] theorem State.interpolate_ready (s : State) (q : List Byte) (p : List (List Byte)) : (s.interpolate q p).2.ready = s.ready := by cases s; rfl
@[simp] theorem State.interpolate_fatal (s : State) (q : List Byte) (p : List (List Byte)) : (s.interpolate q p).2.fatal = s.fatal := by cases s; rfl
@[simp] theorem State.interpolate_esticky (s : State) (q : List Byte) (p : List (List Byte)) : (s.interpolate q p).2.esticky = s.esticky := by cases s; rfl
@[simp] theorem State.interpolate_errcode (s : State) (q : List Byte) (p : List (List Byte)) : (s.interpolate q p).2.errcode = s.errcode := by cases s; rfl
@[simp] theorem State.interpolate_errinfo (s : State) (q : List Byte) (p : List (List Byte)) : (s.interpolate q p).2.errinfo = s.errinfo := by cases s; rfl
@[simp] theorem State.interpolate_maxLen (s : State) (q : List Byte) (p : List (List Byte)) : (s.interpolate q p).2.maxLen = s.maxLen := by cases s; rfl
@[simp] theorem State.interpolate_pc (s : State) (q : List Byte) (p : List (List Byte)) : (s.interpolate q p).2.pc = s.pc := by cases s; rfl
@[simp] theorem State.interpolate_host (s : State) (q : List Byte) (p : List (List Byte)) : (s.interpolate q p).2.host = s.host := by cases s; rfl
@[simp] theorem State.interpolate_freeCount (s : State) (q : List Byte) (p : List (List Byte)) : (s.interpolate q p).2.freeCount = s.freeCount := by cases s; rfl

end Sys2Proof.Machine
end

