-- ==== Sys2Proof/Laws/Ops.lean ====
section
/-! SUPPORT. What each shared operation does, said once: registers, lengths, bytes and buffers after each update, and the two ways a checked command ends. -/

namespace Sys2Proof.Machine

/-! ### Element registers -/

/-- A register write: the register named, and no other (R24). -/
theorem State.e_setE (s : State) (d : Reg) (v : Byte) (r : Reg) : (s.setE d v).e r = if r = d then v else s.e r := by
  simp only [State.e, State.setE, Vector.get_eq_getElem, Vector.getElem_set]
  by_cases h : r = d
  · simp [h]
  · have : ¬ d.val = r.val := fun h' => h (Fin.ext h'.symm)
    simp [h, this]

@[simp] theorem State.e_setE_self (s : State) (d : Reg) (v : Byte) : (s.setE d v).e d = v := by simp [State.e_setE]

theorem State.e_setE_ne (s : State) {d r : Reg} (v : Byte) (h : r ≠ d) : (s.setE d v).e r = s.e r := by
  simp [State.e_setE, h]

@[simp] theorem State.e_setLen (s : State) (b : Slot) (n : Nat) (r : Reg) : (s.setLen b n).e r = s.e r := rfl
@[simp] theorem State.e_setByte (s : State) (b : Slot) (i : Nat) (v : Byte) (r : Reg) : (s.setByte b i v).e r = s.e r := rfl
@[simp] theorem State.e_zeroBytes (s : State) (b : Slot) (lo hi : Nat) (r : Reg) : (s.zeroBytes b lo hi).e r = s.e r := rfl
@[simp] theorem State.e_setBuf (s : State) (b : Slot) (q : List Byte) (r : Reg) : (s.setBuf b q).e r = s.e r := rfl
@[simp] theorem State.e_complete (s : State) (code : Byte) (v : Word32) (r : Reg) : (s.complete code v).e r = s.e r := rfl
@[simp] theorem State.e_initialise (s : State) (r : Reg) : s.initialise.e r = s.e r := rfl
@[simp] theorem State.e_withHost (s : State) (moves : List HostAction) (r : Reg) : (s.withHost moves).e r = s.e r := rfl
@[simp] theorem State.e_interpolate (s : State) (q : List Byte) (p : List (List Byte)) (r : Reg) :
    (s.interpolate q p).2.e r = s.e r := by simp only [State.e, State.interpolate_regs]

/-! ### Slot lengths -/

/-- A length write: the slot named, and no other (R25). -/
theorem State.len_setLen (s : State) (d : Slot) (n : Nat) (b : Slot) : (s.setLen d n).len b = if b = d then n else s.len b := by
  simp only [State.len, State.setLen, Vector.get_eq_getElem, Vector.getElem_set]
  by_cases h : b = d
  · simp [h]
  · have : ¬ d.val = b.val := fun h' => h (Fin.ext h'.symm)
    simp [h, this]

@[simp] theorem State.len_setE (s : State) (d : Reg) (v : Byte) (b : Slot) : (s.setE d v).len b = s.len b := rfl
@[simp] theorem State.len_setByte (s : State) (d : Slot) (i : Nat) (v : Byte) (b : Slot) : (s.setByte d i v).len b = s.len b := rfl
@[simp] theorem State.len_zeroBytes (s : State) (d : Slot) (lo hi : Nat) (b : Slot) : (s.zeroBytes d lo hi).len b = s.len b := rfl
@[simp] theorem State.len_complete (s : State) (code : Byte) (v : Word32) (b : Slot) : (s.complete code v).len b = s.len b := rfl
@[simp] theorem State.len_initialise (s : State) (b : Slot) : s.initialise.len b = s.len b := rfl
@[simp] theorem State.len_withHost (s : State) (moves : List HostAction) (b : Slot) : (s.withHost moves).len b = s.len b := rfl
@[simp] theorem State.len_interpolate (s : State) (q : List Byte) (p : List (List Byte)) (b : Slot) :
    (s.interpolate q p).2.len b = s.len b := by simp only [State.len, State.interpolate_lens]

theorem State.len_setBuf (s : State) (d : Slot) (q : List Byte) (b : Slot) :
    (s.setBuf d q).len b = if b = d then q.length else s.len b := by
  rw [← State.len_setLen]; rfl

@[simp] theorem State.len_setBuf_self (s : State) (d : Slot) (q : List Byte) : (s.setBuf d q).len d = q.length := by
  simp [State.len_setBuf]

/-! ### Slot bytes -/

@[simp] theorem State.byte_setE (s : State) (d : Reg) (v : Byte) (b : Slot) (i : Nat) : (s.setE d v).byte b i = s.byte b i := rfl
@[simp] theorem State.byte_setLen (s : State) (d : Slot) (n : Nat) (b : Slot) (i : Nat) : (s.setLen d n).byte b i = s.byte b i := rfl
@[simp] theorem State.byte_complete (s : State) (code : Byte) (v : Word32) (b : Slot) (i : Nat) : (s.complete code v).byte b i = s.byte b i := rfl
@[simp] theorem State.byte_initialise (s : State) (b : Slot) (i : Nat) : s.initialise.byte b i = s.byte b i := rfl
@[simp] theorem State.byte_withHost (s : State) (moves : List HostAction) (b : Slot) (i : Nat) : (s.withHost moves).byte b i = s.byte b i := rfl
@[simp] theorem State.byte_interpolate (s : State) (q : List Byte) (p : List (List Byte)) (b : Slot) (i : Nat) :
    (s.interpolate q p).2.byte b i = s.byte b i := by simp only [State.byte, State.interpolate_mem]

/-- A byte write: the byte named, and no other (R25). -/
theorem State.byte_setByte (s : State) (d : Slot) (j : Nat) (v : Byte) (b : Slot) (i : Nat) :
    (s.setByte d j v).byte b i = if b = d ∧ i = j then v else s.byte b i := by
  simp only [State.byte, State.setByte, Memory.read_write, cellKey_inj]

theorem State.byte_zeroBytes (s : State) (d : Slot) (lo hi : Nat) (b : Slot) (i : Nat) :
    (s.zeroBytes d lo hi).byte b i = if b = d ∧ lo ≤ i ∧ i < hi then 0 else s.byte b i :=
  Memory.read_zeroRange s.mem d lo hi b i

/-- `SetBuf`: the bytes of `q`, zeros behind them up to `MAXLEN`, no other slot (R7, R25). -/
theorem State.byte_setBuf (s : State) (d : Slot) (q : List Byte) (b : Slot) (i : Nat) :
    (s.setBuf d q).byte b i =
      if b = d then
        if i < q.length then q.getD i 0 else if i < s.maxLen.toNat then 0 else s.byte b i
      else s.byte b i := by
  simp only [State.byte, State.setBuf_mem, Memory.read_writeFrom, Memory.read_zeroRange]
  by_cases hb : b = d
  · by_cases hi : i < q.length
    · simp [hb, hi]
    · by_cases hm : i < s.maxLen.toNat
      · have : q.length ≤ i := by omega
        simp [hb, hi, hm, this]
      · simp [hb, hi, hm]
  · simp [hb]

theorem State.byte_setBuf_ne (s : State) {d b : Slot} (q : List Byte) (h : b ≠ d) (i : Nat) :
    (s.setBuf d q).byte b i = s.byte b i := by simp [State.byte_setBuf, h]

theorem State.byte_setBuf_lt (s : State) (d : Slot) (q : List Byte) {i : Nat} (h : i < q.length) :
    (s.setBuf d q).byte d i = q.getD i 0 := by simp [State.byte_setBuf, h]

/-! ### Buffers -/

@[simp] theorem State.length_buf (s : State) (b : Slot) : (s.buf b).length = s.len b := by simp [State.buf]

theorem State.getD_buf (s : State) (b : Slot) {i : Nat} (h : i < s.len b) : (s.buf b).getD i 0 = s.byte b i := by
  simp [State.buf, List.getD, h]

/-- Two states with the same length and bytes of a slot hold the same buffer there. -/
theorem State.buf_congr {s t : State} {b c : Slot} (hl : s.len b = t.len c) (hb : ∀ i, i < t.len c → s.byte b i = t.byte c i) :
    s.buf b = t.buf c := by
  simp only [State.buf, hl]
  exact List.map_congr_left fun i hi => hb i (by simpa using hi)

/-- `Buf(d)` after `SetBuf(d, q)` is `q` (R7). -/
@[simp] theorem State.buf_setBuf_self (s : State) (d : Slot) (q : List Byte) : (s.setBuf d q).buf d = q := by
  apply List.ext_getElem (by simp)
  intro i h1 h2
  simp only [State.buf, List.getElem_map, List.getElem_range]
  rw [State.byte_setBuf_lt _ _ _ h2]
  simp [List.getD, h2]

theorem State.buf_setBuf_ne (s : State) {d b : Slot} (q : List Byte) (h : b ≠ d) : (s.setBuf d q).buf b = s.buf b :=
  State.buf_congr (by simp [State.len_setBuf, h]) fun i _ => by simp [State.byte_setBuf, h]

@[simp] theorem State.buf_setE (s : State) (d : Reg) (v : Byte) (b : Slot) : (s.setE d v).buf b = s.buf b := rfl
@[simp] theorem State.buf_complete (s : State) (code : Byte) (v : Word32) (b : Slot) : (s.complete code v).buf b = s.buf b := rfl
@[simp] theorem State.buf_withHost (s : State) (moves : List HostAction) (b : Slot) : (s.withHost moves).buf b = s.buf b := rfl

/-! ### The end of a command -/

theorem State.finish_eq (s : State) : s.finish = .next (s.complete 0 0) := rfl
theorem State.raise_eq (s : State) (err : Err) (v : Word32) : s.raise err v = .next (s.complete err.code v) := rfl

/-- A checked command ends in one of two ways: the first failing check is reported, or the effect is
performed and the command finishes (R192). -/
theorem State.checked_cases (s : State) (check : Option (Err × Word32)) (effect : State → State) :
    (∃ err v, check = some (err, v) ∧ s.checked check effect = .next (s.complete err.code v)) ∨
      (check = none ∧ s.checked check effect = .next ((effect s).complete 0 0)) := by
  rcases check with _ | ⟨err, v⟩
  · exact .inr ⟨rfl, rfl⟩
  · exact .inl ⟨err, v, rfl, rfl⟩

@[simp] theorem State.checked_none (s : State) (effect : State → State) : s.checked none effect = .next ((effect s).complete 0 0) := rfl
@[simp] theorem State.checked_some (s : State) (err : Err) (v : Word32) (effect : State → State) :
    s.checked (some (err, v)) effect = .next (s.complete err.code v) := rfl

@[simp] theorem raiseIf_true (err : Err) (v : Word32) : raiseIf true err v = some (err, v) := rfl
@[simp] theorem raiseIf_false (err : Err) (v : Word32) : raiseIf false err v = none := rfl
@[simp] theorem raiseAt_none (err : Err) (f : Nat → Word32) : raiseAt none err f = none := rfl
@[simp] theorem raiseAt_some (j : Nat) (err : Err) (f : Nat → Word32) : raiseAt (some j) err f = some (err, f j) := rfl

theorem raiseIf_eq_none {bad : Bool} {err : Err} {v : Word32} : raiseIf bad err v = none ↔ bad = false := by
  cases bad <;> simp

theorem raiseAt_eq_none {found : Option Nat} {err : Err} {f : Nat → Word32} : raiseAt found err f = none ↔ found = none := by
  cases found <;> simp

/-- Every code but success is nonzero, and exactly the two fatal errors are of the fatal class (R190, R191). -/
@[simp] theorem Err.code_ne_zero (e : Err) : ¬ e.code = 0#8 := by cases e <;> decide

theorem Err.isFatalCode_code (e : Err) : isFatalCode e.code = (decide (e = .divZero) || decide (e = .invZero)) := by
  cases e <;> decide

@[simp] theorem isFatalCode_zero : isFatalCode 0#8 = false := by decide

end Sys2Proof.Machine
end

