-- ==== Sys2Proof/Laws/Interpolate.lean ====
section
/-! SUPPORT. What the interpolator's scratch does (R32, R140): the results are those of the pure function, and what was loaded is wiped. -/

namespace Sys2Proof.Machine

namespace Scratch

/-- An entry after loading: the byte loaded, or what was held. -/
theorem getElem_load (v : Scratch) (q : List Byte) (i : Nat) (hi : i < 256) :
    (v.load q)[i] = if h : i < q.length then q[i] else v[i] := by
  simp only [Scratch.load, Vector.getElem_mk, List.getElem_toArray, List.getElem_append, List.length_take]
  by_cases h : i < q.length
  · simp [h, hi]
  · have h3 : min 256 q.length = q.length := by omega
    simp only [h, h3, List.getElem_drop, Vector.getElem_toList, dite_false]
    congr 1
    omega

theorem held_load (v : Scratch) {q : List Byte} (h : q.length ≤ 256) : (v.load q).held q.length = q := by
  apply List.ext_getElem
  · simp [Scratch.held, h]
  · intro i h1 h2
    simp [Scratch.held, getElem_load, h2]

theorem wipe_load (v : Scratch) (q : List Byte) : (v.load q).wipe q.length = v.wipe q.length := by
  ext i hi
  by_cases h : i < q.length <;> simp [Scratch.wipe, getElem_load, h]

theorem wipe_wipe (v : Scratch) (k : Nat) : (v.wipe k).wipe k = v.wipe k := by
  ext i hi
  by_cases h : i < k <;> simp [Scratch.wipe, getElem_load, h]

@[simp] theorem wipe_clear (k : Nat) : Scratch.wipe Scratch.clear k = Scratch.clear := by
  ext i hi
  by_cases h : i < k <;> simp [Scratch.wipe, getElem_load, Scratch.clear, h]

end Scratch

/-- The positions one after another give the pure results; `YS` is wiped if there was a position. -/
theorem interpPositions_eq (t : Tables) (xs ys : Scratch) (k : Nat) (rows : List (List Byte)) (hk : k ≤ 256)
    (hrows : ∀ q ∈ rows, q.length = k) :
    interpPositions t xs k ys rows =
      (rows.map (lagrange0 t (xs.held k)), if rows = [] then ys else ys.wipe k) := by
  induction rows generalizing ys with
  | nil => rfl
  | cons q rows ih =>
    have hq : q.length = k := hrows q (by simp)
    subst hq
    have ih := ih ((ys.load q).wipe q.length) fun p hp => hrows p (by simp [hp])
    rw [Scratch.wipe_load, Scratch.wipe_wipe] at ih
    simp only [interpPositions, Scratch.held_load _ hk, Scratch.wipe_load, ih]
    by_cases hr : rows = [] <;> simp [hr]

/-- The interpolator's results are `lagrange0` at each position (R135, R139). -/
theorem State.interpolate_fst (s : State) {q : List Byte} {rows : List (List Byte)} (hq : q.length ≤ 256)
    (hrows : ∀ p ∈ rows, p.length = q.length) :
    (s.interpolate q rows).1 = rows.map (lagrange0 s.tables q) := by
  simp only [State.interpolate, interpPositions_eq _ _ _ _ _ hq hrows, Scratch.held_load _ hq]

theorem State.interpolate_xs (s : State) (q : List Byte) (rows : List (List Byte)) :
    (s.interpolate q rows).2.xs = s.xs.wipe q.length := by
  simp only [State.interpolate, Scratch.wipe_load]

theorem State.interpolate_ys (s : State) {q : List Byte} {rows : List (List Byte)} (hq : q.length ≤ 256)
    (hrows : ∀ p ∈ rows, p.length = q.length) :
    (s.interpolate q rows).2.ys = if rows = [] then s.ys else s.ys.wipe q.length := by
  simp only [State.interpolate, interpPositions_eq _ _ _ _ _ hq hrows]

/-- Scratch that was all zero is all zero again (R32, R140). -/
theorem State.interpolate_clear (s : State) {q : List Byte} {rows : List (List Byte)} (hq : q.length ≤ 256)
    (hrows : ∀ p ∈ rows, p.length = q.length) (hx : s.xs = Scratch.clear) (hy : s.ys = Scratch.clear) :
    (s.interpolate q rows).2.xs = Scratch.clear ∧ (s.interpolate q rows).2.ys = Scratch.clear := by
  rw [State.interpolate_xs, State.interpolate_ys s hq hrows, hx, hy]
  simp

/-! ### The duplicate check -/

theorem find?_range_eq_none {n : Nat} {p : Nat → Bool} : (List.range n).find? p = none ↔ ∀ j, j < n → p j = false := by
  simp [List.find?_eq_none]

/-- A search for the lowest index finds one that satisfies the condition, below which none does. -/
theorem find?_range_eq_some {n j : Nat} {p : Nat → Bool} :
    (List.range n).find? p = some j ↔ j < n ∧ p j = true ∧ ∀ i, i < j → p i = false := by
  rw [List.find?_range_eq_some]
  simp only [List.mem_range, Bool.not_eq_true']
  tauto

/-- No byte repeats an earlier one exactly when all bytes differ (R138, R139). -/
theorem firstRepeat_eq_none {xs : List Byte} : firstRepeat xs = none ↔ xs.Nodup := by
  rw [firstRepeat, find?_range_eq_none, List.nodup_iff_getElem?_ne_getElem?]
  constructor
  · intro h i j hij hj heq
    have hi : i < xs.length := by omega
    have h := h j hj
    rw [Bool.eq_false_iff] at h
    apply h
    rw [List.contains_iff_mem, List.mem_take_iff_getElem]
    refine ⟨i, by omega, ?_⟩
    simp only [List.getElem?_eq_getElem hi, List.getElem?_eq_getElem hj, Option.some.injEq] at heq
    simp [List.getD, hj, heq]
  · intro h j hj
    rw [Bool.eq_false_iff]
    intro hc
    rw [List.contains_iff_mem, List.mem_take_iff_getElem] at hc
    obtain ⟨i, hi, heq⟩ := hc
    refine h i j (by omega) hj ?_
    rw [List.getElem?_eq_getElem (by omega), List.getElem?_eq_getElem hj, heq]
    simp [List.getD, hj]

/-- More than 256 bytes must repeat one (R138). -/
theorem nodup_length_le {xs : List Byte} (h : xs.Nodup) : xs.length ≤ 256 := by
  have h2 : (xs.map BitVec.toNat).Nodup := h.map (fun a b hab => BitVec.eq_of_toNat_eq hab)
  have h3 : (xs.map BitVec.toNat) ⊆ List.range 256 := by
    intro n hn
    obtain ⟨v, -, rfl⟩ := List.mem_map.mp hn
    exact List.mem_range.mpr v.isLt
  simpa using (h2.subperm h3).length_le

end Sys2Proof.Machine
end

