-- ==== Sys2Proof/Laws/PerInstr.lean ====
section
/-! SUPPORT. The family OpcodeRow: the word of each command has the bits its row of the opcode table fixes (R75). -/

namespace Sys2Proof.Laws.OpcodeRow

/-- The encoded command is covered by its own row: `word AND mask = match` (R75). -/
def Statement (i : Instr) : Prop := i.row.covers (encode i) = true

/-- A word is covered by a row exactly when each field is, under the row's mask of that field. -/
theorem covers_packFields {r : OpRow} {f m v : Fields} (hm : fieldsOf r.mask = m) (hv : fieldsOf r.pattern = v)
    (hop : f.op &&& m.op = v.op) (ha : f.a &&& m.a = v.a) (hb : f.b &&& m.b = v.b) (hc : f.c &&& m.c = v.c)
    (hn : f.n &&& m.n = v.n) : r.covers (packFields f) = true := by
  have hmask : r.mask = packFields m := by rw [← hm, packFields_fieldsOf]
  have hpat : r.pattern = packFields v := by rw [← hv, packFields_fieldsOf]
  rw [OpRow.covers, beq_iff_eq, hmask, hpat]
  simp only [packFields, ← hop, ← ha, ← hb, ← hc, ← hn]
  ext i hi
  grind

/-- The upper four bits of a register's field are zero (R73). -/
theorem regByte_high (r : Reg) : regByte r &&& 0xF0 = 0 := by revert r; decide

/-- The upper 24 bits of an immediate byte's number are zero (R74). -/
theorem imm_high (v : Byte) : v.setWidth 32 &&& 0xFFFFFF00 = (0 : Word32) := by
  revert v
  decide +kernel

theorem zero_and_mask {w : Nat} (v : BitVec w) : (0 : BitVec w) &&& v = 0 := by simp

theorem and_zero_mask {w : Nat} (v : BitVec w) : v &&& 0 = 0 := by simp

theorem gfadd (ed : Reg) (ea : Reg) (eb : Reg) : Statement (.gfadd ed ea eb) :=
  covers_packFields (m := ⟨0xFF, 0xF0, 0xF0, 0xF0, 0xFFFFFFFF⟩) (v := ⟨0x10, 0x00, 0x00, 0x00, 0x00000000⟩)
    (by show fieldsOf 0xFFF0F0F0FFFFFFFF = _; decide) (by show fieldsOf 0x1000000000000000 = _; decide)
    (by show (0x10 : Byte) &&& 0xFF = 0x10; decide) (regByte_high _) (regByte_high _) (regByte_high _) (zero_and_mask _)

theorem gfmul (ed : Reg) (ea : Reg) (eb : Reg) : Statement (.gfmul ed ea eb) :=
  covers_packFields (m := ⟨0xFF, 0xF0, 0xF0, 0xF0, 0xFFFFFFFF⟩) (v := ⟨0x11, 0x00, 0x00, 0x00, 0x00000000⟩)
    (by show fieldsOf 0xFFF0F0F0FFFFFFFF = _; decide) (by show fieldsOf 0x1100000000000000 = _; decide)
    (by show (0x11 : Byte) &&& 0xFF = 0x11; decide) (regByte_high _) (regByte_high _) (regByte_high _) (zero_and_mask _)

theorem gfdiv (ed : Reg) (ea : Reg) (eb : Reg) : Statement (.gfdiv ed ea eb) :=
  covers_packFields (m := ⟨0xFF, 0xF0, 0xF0, 0xF0, 0xFFFFFFFF⟩) (v := ⟨0x12, 0x00, 0x00, 0x00, 0x00000000⟩)
    (by show fieldsOf 0xFFF0F0F0FFFFFFFF = _; decide) (by show fieldsOf 0x1200000000000000 = _; decide)
    (by show (0x12 : Byte) &&& 0xFF = 0x12; decide) (regByte_high _) (regByte_high _) (regByte_high _) (zero_and_mask _)

theorem gfinv (ed : Reg) (ea : Reg) : Statement (.gfinv ed ea) :=
  covers_packFields (m := ⟨0xFF, 0xF0, 0xF0, 0xFF, 0xFFFFFFFF⟩) (v := ⟨0x13, 0x00, 0x00, 0x00, 0x00000000⟩)
    (by show fieldsOf 0xFFF0F0FFFFFFFFFF = _; decide) (by show fieldsOf 0x1300000000000000 = _; decide)
    (by show (0x13 : Byte) &&& 0xFF = 0x13; decide) (regByte_high _) (regByte_high _) (zero_and_mask _) (zero_and_mask _)

theorem gfexp (ed : Reg) (ea : Reg) : Statement (.gfexp ed ea) :=
  covers_packFields (m := ⟨0xFF, 0xF0, 0xF0, 0xFF, 0xFFFFFFFF⟩) (v := ⟨0x14, 0x00, 0x00, 0x00, 0x00000000⟩)
    (by show fieldsOf 0xFFF0F0FFFFFFFFFF = _; decide) (by show fieldsOf 0x1400000000000000 = _; decide)
    (by show (0x14 : Byte) &&& 0xFF = 0x14; decide) (regByte_high _) (regByte_high _) (zero_and_mask _) (zero_and_mask _)

theorem gflog (ed : Reg) (ea : Reg) : Statement (.gflog ed ea) :=
  covers_packFields (m := ⟨0xFF, 0xF0, 0xF0, 0xFF, 0xFFFFFFFF⟩) (v := ⟨0x15, 0x00, 0x00, 0x00, 0x00000000⟩)
    (by show fieldsOf 0xFFF0F0FFFFFFFFFF = _; decide) (by show fieldsOf 0x1500000000000000 = _; decide)
    (by show (0x15 : Byte) &&& 0xFF = 0x15; decide) (regByte_high _) (regByte_high _) (zero_and_mask _) (zero_and_mask _)

theorem vadd (bd : Slot) (ba : Slot) (bb : Slot) : Statement (.vadd bd ba bb) :=
  covers_packFields (m := ⟨0xFF, 0x00, 0x00, 0x00, 0xFFFFFFFF⟩) (v := ⟨0x20, 0x00, 0x00, 0x00, 0x00000000⟩)
    (by show fieldsOf 0xFF000000FFFFFFFF = _; decide) (by show fieldsOf 0x2000000000000000 = _; decide)
    (by show (0x20 : Byte) &&& 0xFF = 0x20; decide) (and_zero_mask _) (and_zero_mask _) (and_zero_mask _) (zero_and_mask _)

theorem vmul (bd : Slot) (ba : Slot) (ex : Reg) : Statement (.vmul bd ba ex) :=
  covers_packFields (m := ⟨0xFF, 0x00, 0x00, 0xF0, 0xFFFFFFFF⟩) (v := ⟨0x21, 0x00, 0x00, 0x00, 0x00000000⟩)
    (by show fieldsOf 0xFF0000F0FFFFFFFF = _; decide) (by show fieldsOf 0x2100000000000000 = _; decide)
    (by show (0x21 : Byte) &&& 0xFF = 0x21; decide) (and_zero_mask _) (and_zero_mask _) (regByte_high _) (zero_and_mask _)

theorem vzero (bd : Slot) : Statement (.vzero bd) :=
  covers_packFields (m := ⟨0xFF, 0x00, 0xFF, 0xFF, 0xFFFFFFFF⟩) (v := ⟨0x22, 0x00, 0x00, 0x00, 0x00000000⟩)
    (by show fieldsOf 0xFF00FFFFFFFFFFFF = _; decide) (by show fieldsOf 0x2200000000000000 = _; decide)
    (by show (0x22 : Byte) &&& 0xFF = 0x22; decide) (and_zero_mask _) (zero_and_mask _) (zero_and_mask _) (zero_and_mask _)

theorem peval (ed : Reg) (ba : Slot) (ex : Reg) : Statement (.peval ed ba ex) :=
  covers_packFields (m := ⟨0xFF, 0xF0, 0x00, 0xF0, 0xFFFFFFFF⟩) (v := ⟨0x30, 0x00, 0x00, 0x00, 0x00000000⟩)
    (by show fieldsOf 0xFFF000F0FFFFFFFF = _; decide) (by show fieldsOf 0x3000000000000000 = _; decide)
    (by show (0x30 : Byte) &&& 0xFF = 0x30; decide) (regByte_high _) (and_zero_mask _) (regByte_high _) (zero_and_mask _)

theorem pevalv (bd : Slot) (ba : Slot) (ex : Reg) (k : Nat) : Statement (.pevalv bd ba ex k) :=
  covers_packFields (m := ⟨0xFF, 0x00, 0x00, 0xF0, 0x00000000⟩) (v := ⟨0x31, 0x00, 0x00, 0x00, 0x00000000⟩)
    (by show fieldsOf 0xFF0000F000000000 = _; decide) (by show fieldsOf 0x3100000000000000 = _; decide)
    (by show (0x31 : Byte) &&& 0xFF = 0x31; decide) (and_zero_mask _) (and_zero_mask _) (regByte_high _) (and_zero_mask _)

theorem pshare (bd : Slot) (ba : Slot) (ex : Reg) (k : Nat) : Statement (.pshare bd ba ex k) :=
  covers_packFields (m := ⟨0xFF, 0x00, 0x00, 0xF0, 0x00000000⟩) (v := ⟨0x32, 0x00, 0x00, 0x00, 0x00000000⟩)
    (by show fieldsOf 0xFF0000F000000000 = _; decide) (by show fieldsOf 0x3200000000000000 = _; decide)
    (by show (0x32 : Byte) &&& 0xFF = 0x32; decide) (and_zero_mask _) (and_zero_mask _) (regByte_high _) (and_zero_mask _)

theorem lagr0 (ed : Reg) (ba : Slot) (bb : Slot) : Statement (.lagr0 ed ba bb) :=
  covers_packFields (m := ⟨0xFF, 0xF0, 0x00, 0x00, 0xFFFFFFFF⟩) (v := ⟨0x40, 0x00, 0x00, 0x00, 0x00000000⟩)
    (by show fieldsOf 0xFFF00000FFFFFFFF = _; decide) (by show fieldsOf 0x4000000000000000 = _; decide)
    (by show (0x40 : Byte) &&& 0xFF = 0x40; decide) (regByte_high _) (and_zero_mask _) (and_zero_mask _) (zero_and_mask _)

theorem combine (bd : Slot) (ba : Slot) (k : Nat) : Statement (.combine bd ba k) :=
  covers_packFields (m := ⟨0xFF, 0x00, 0x00, 0xFF, 0x00000000⟩) (v := ⟨0x41, 0x00, 0x00, 0x00, 0x00000000⟩)
    (by show fieldsOf 0xFF0000FF00000000 = _; decide) (by show fieldsOf 0x4100000000000000 = _; decide)
    (by show (0x41 : Byte) &&& 0xFF = 0x41; decide) (and_zero_mask _) (and_zero_mask _) (zero_and_mask _) (and_zero_mask _)

theorem ldi (ed : Reg) (imm : Byte) : Statement (.ldi ed imm) :=
  covers_packFields (m := ⟨0xFF, 0xF0, 0xFF, 0xFF, 0xFFFFFF00⟩) (v := ⟨0x50, 0x00, 0x00, 0x00, 0x00000000⟩)
    (by show fieldsOf 0xFFF0FFFFFFFFFF00 = _; decide) (by show fieldsOf 0x5000000000000000 = _; decide)
    (by show (0x50 : Byte) &&& 0xFF = 0x50; decide) (regByte_high _) (zero_and_mask _) (zero_and_mask _) (imm_high _)

theorem ldb (ed : Reg) (ba : Slot) (off : Nat) : Statement (.ldb ed ba off) :=
  covers_packFields (m := ⟨0xFF, 0xF0, 0x00, 0xFF, 0x00000000⟩) (v := ⟨0x51, 0x00, 0x00, 0x00, 0x00000000⟩)
    (by show fieldsOf 0xFFF000FF00000000 = _; decide) (by show fieldsOf 0x5100000000000000 = _; decide)
    (by show (0x51 : Byte) &&& 0xFF = 0x51; decide) (regByte_high _) (and_zero_mask _) (zero_and_mask _) (and_zero_mask _)

theorem stb (es : Reg) (ba : Slot) (off : Nat) : Statement (.stb es ba off) :=
  covers_packFields (m := ⟨0xFF, 0xF0, 0x00, 0xFF, 0x00000000⟩) (v := ⟨0x52, 0x00, 0x00, 0x00, 0x00000000⟩)
    (by show fieldsOf 0xFFF000FF00000000 = _; decide) (by show fieldsOf 0x5200000000000000 = _; decide)
    (by show (0x52 : Byte) &&& 0xFF = 0x52; decide) (regByte_high _) (and_zero_mask _) (zero_and_mask _) (and_zero_mask _)

theorem setlen (ba : Slot) (len : Nat) : Statement (.setlen ba len) :=
  covers_packFields (m := ⟨0xFF, 0xFF, 0x00, 0xFF, 0x00000000⟩) (v := ⟨0x53, 0x00, 0x00, 0x00, 0x00000000⟩)
    (by show fieldsOf 0xFFFF00FF00000000 = _; decide) (by show fieldsOf 0x5300000000000000 = _; decide)
    (by show (0x53 : Byte) &&& 0xFF = 0x53; decide) (zero_and_mask _) (and_zero_mask _) (zero_and_mask _) (and_zero_mask _)

end Sys2Proof.Laws.OpcodeRow
end

