-- ==== Sys2Proof/Laws/Step.lean ====
section
/-! SUPPORT. What one command and one step can do, each said once: the ways a command ends (R192) and the moves of the three agents (R34). Later proofs split on these and never unfold `exec` or `step`. -/

namespace Sys2Proof.Machine

/-- Nothing a command must leave alone has changed: the status, `pc`, and what no command writes. -/
structure Quiet (s u : State) : Prop where
  status : SameStatus s u
  rest : SameRest s u

theorem quiet_setE (s : State) (d : Reg) (v : Byte) : Quiet s (s.setE d v) := ⟨⟨rfl, rfl, rfl, rfl, rfl⟩, ⟨rfl, rfl, rfl, rfl, rfl⟩⟩
theorem quiet_setBuf (s : State) (d : Slot) (q : List Byte) : Quiet s (s.setBuf d q) :=
  ⟨⟨rfl, rfl, rfl, rfl, rfl⟩, ⟨rfl, rfl, rfl, rfl, rfl⟩⟩
theorem quiet_setByte (s : State) (d : Slot) (i : Nat) (v : Byte) : Quiet s (s.setByte d i v) :=
  ⟨⟨rfl, rfl, rfl, rfl, rfl⟩, ⟨rfl, rfl, rfl, rfl, rfl⟩⟩
theorem quiet_zeroBytes (s : State) (d : Slot) (lo hi : Nat) : Quiet s (s.zeroBytes d lo hi) :=
  ⟨⟨rfl, rfl, rfl, rfl, rfl⟩, ⟨rfl, rfl, rfl, rfl, rfl⟩⟩
theorem quiet_setLen (s : State) (d : Slot) (n : Nat) : Quiet s (s.setLen d n) :=
  ⟨⟨rfl, rfl, rfl, rfl, rfl⟩, ⟨rfl, rfl, rfl, rfl, rfl⟩⟩
theorem quiet_interpolate (s : State) (q : List Byte) (p : List (List Byte)) : Quiet s (s.interpolate q p).2 := by
  constructor <;> constructor <;> simp

theorem Quiet.trans {s u v : State} (h : Quiet s u) (h' : Quiet u v) : Quiet s v :=
  ⟨⟨h'.1.1.trans h.1.1, h'.1.2.trans h.1.2, h'.1.3.trans h.1.3, h'.1.4.trans h.1.4, h'.1.5.trans h.1.5⟩,
    ⟨h'.2.1.trans h.2.1, h'.2.2.trans h.2.2, h'.2.3.trans h.2.3, h'.2.4.trans h.2.4, h'.2.5.trans h.2.5⟩⟩

/-- A checked command ends with a check's error and no effect, or with its effect and no error (R192). -/
theorem State.checked_ends (s : State) (check : Option (Err × Word32)) (effect : State → State) (hq : Quiet s (effect s)) :
    (∃ (err : Err) (v : Word32), s.checked check effect = .next (s.complete err.code v)) ∨
      ∃ u, s.checked check effect = .next (u.complete 0 0) ∧ Quiet s u := by
  rcases s.checked_cases check effect with ⟨err, v, -, h⟩ | ⟨-, h⟩
  · exact .inl ⟨err, v, h⟩
  · exact .inr ⟨_, h, hq⟩

/-- Every command, in every state, ends in one of two ways: with an error and no other effect, or without an error
after an effect that leaves the status, `pc` and the rest alone (R192, R193). -/
theorem exec_ends (i : Instr) (s : State) :
    (∃ (err : Err) (v : Word32), exec i s = .next (s.complete err.code v)) ∨ ∃ u, exec i s = .next (u.complete 0 0) ∧ Quiet s u := by
  cases i with
  | gfadd d a b => exact .inr ⟨_, State.finish_eq _, quiet_setE ..⟩
  | gfmul d a b => exact .inr ⟨_, State.finish_eq _, quiet_setE ..⟩
  | gfdiv d a b =>
    show (∃ (err : Err) (v : Word32), execGfdiv d a b s = _) ∨ ∃ u, execGfdiv d a b s = _ ∧ _
    by_cases h : s.e b = 0
    · rw [execGfdiv, dif_pos h]; exact .inl ⟨_, _, State.raise_eq ..⟩
    · rw [execGfdiv, dif_neg h]; exact .inr ⟨_, State.finish_eq _, quiet_setE ..⟩
  | gfinv d a =>
    show (∃ (err : Err) (v : Word32), execGfinv d a s = _) ∨ ∃ u, execGfinv d a s = _ ∧ _
    by_cases h : s.e a = 0
    · rw [execGfinv, dif_pos h]; exact .inl ⟨_, _, State.raise_eq ..⟩
    · rw [execGfinv, dif_neg h]; exact .inr ⟨_, State.finish_eq _, quiet_setE ..⟩
  | gfexp d a => exact .inr ⟨_, State.finish_eq _, quiet_setE ..⟩
  | gflog d a => exact .inr ⟨_, State.finish_eq _, quiet_setE ..⟩
  | vadd d a b => simp only [exec, execVadd]; exact State.checked_ends _ _ _ (quiet_setBuf ..)
  | vmul d a x => exact .inr ⟨_, State.finish_eq _, quiet_setBuf ..⟩
  | vzero d => exact .inr ⟨_, State.finish_eq _, quiet_zeroBytes ..⟩
  | peval d a x => exact .inr ⟨_, State.finish_eq _, quiet_setE ..⟩
  | pevalv d a x k => simp only [exec, execPevalv]; exact State.checked_ends _ _ _ (quiet_setBuf ..)
  | pshare d a x k => simp only [exec, execPshare]; exact State.checked_ends _ _ _ (quiet_setBuf ..)
  | lagr0 d a b => simp only [exec, execLagr0]; exact State.checked_ends _ _ _ ((quiet_interpolate ..).trans (quiet_setE ..))
  | combine d a k => simp only [exec, execCombine]; exact State.checked_ends _ _ _ ((quiet_interpolate ..).trans (quiet_setBuf ..))
  | ldi d v => exact .inr ⟨_, State.finish_eq _, quiet_setE ..⟩
  | ldb d a off => simp only [exec, execLdb]; exact State.checked_ends _ _ _ (quiet_setE ..)
  | stb r a off => simp only [exec, execStb]; exact State.checked_ends _ _ _ (quiet_setByte ..)
  | setlen a n => simp only [exec, execSetlen]; exact State.checked_ends _ _ _ ((quiet_zeroBytes ..).trans (quiet_setLen ..))

/-- What a port action answers, if it answers a next state (R57). -/
theorem State.portAction_cases {s t : State} {act : PortAction} (h : s.portAction act = .next t) :
    (∃ b q, act = .writeBuf b q ∧ q.length ≤ s.maxLen.toNat ∧ t = s.setBuf b q) ∨
    ((∃ b, act = .readBuf b) ∨ (∃ r, act = .readReg r) ∨ ∃ k, act = .readCsr k) ∧ t = s ∨
    (act = .reset ∧ t = s.hostReset) := by
  cases act with
  | writeBuf b q =>
    rw [State.portAction] at h
    split at h
    · rename_i hq; cases h; exact .inl ⟨b, q, rfl, hq, rfl⟩
    · cases h
  | readBuf b => cases h; exact .inr (.inl ⟨.inl ⟨b, rfl⟩, rfl⟩)
  | readReg r => cases h; exact .inr (.inl ⟨.inr (.inl ⟨r, rfl⟩), rfl⟩)
  | readCsr k => cases h; exact .inr (.inl ⟨.inr (.inr ⟨k, rfl⟩), rfl⟩)
  | reset => exact .inr (.inr ⟨rfl, (Host.Outcome.next.inj h).symm⟩)

/-- Everything a step that answers a next state can be (R34, R192, R222): the initialiser's step, an idle step, a
refused word, an illegal word, a command, or a port action. -/
theorem step_cases {s t : State} (h : step s = .next t) :
    (s.ready = false ∧ t = s.afterChoice.initialise) ∨
    (s.host = [] ∧ s.ready = true ∧ s.fatal = false ∧ t = s) ∨
    (∃ w rest, s.host = .issue w :: rest ∧ s.ready = true ∧ s.fatal = true ∧ t = s.withHost rest) ∨
    (∃ w rest why, s.host = .issue w :: rest ∧ s.ready = true ∧ s.fatal = false ∧ decode w = .error why ∧
      t = (s.withHost rest).complete Err.illegal.code (w.extractLsb' 32 32)) ∨
    (∃ w rest i, s.host = .issue w :: rest ∧ s.ready = true ∧ s.fatal = false ∧ decode w = .ok i ∧
      exec i (s.withHost rest) = .next t) ∨
    (∃ act rest, s.host = .port act :: rest ∧ (s.afterChoice.withHost rest).portAction act = .next t) := by
  rw [step, State.move] at h
  by_cases hi : s.initialiserMoves = true
  · rw [if_pos hi] at h
    refine .inl ⟨?_, (Host.Outcome.next.inj h).symm⟩
    rw [State.initialiserMoves, Bool.and_eq_true] at hi
    simpa using hi.1
  rw [if_neg hi] at h
  have hr : (∀ act rest, s.host ≠ .port act :: rest) → s.ready = true := by
    intro hp
    by_contra hr
    apply hi
    have hc : s.choiceOpen = false := by
      rw [State.choiceOpen]
      split
      · rename_i act rest heq; exact absurd heq (hp act rest)
      · rfl
      · rfl
    have hr : s.ready = false := by simpa using hr
    rw [State.initialiserMoves, hc, hr]; rfl
  rcases hh : s.host with _ | ⟨m, rest⟩
  · have hr := hr (by simp [hh])
    simp only [hh] at h
    split at h
    · cases h
    · rename_i hf
      exact .inr (.inl ⟨rfl, hr, by simpa using hf, (Host.Outcome.next.inj h).symm⟩)
  · cases m with
    | issue w =>
      have hr := hr fun act rest' => by rw [hh]; exact nofun
      simp only [hh, State.issue] at h
      split at h
      · rename_i hf
        exact .inr (.inr (.inl ⟨w, rest, rfl, hr, hf, (Host.Outcome.next.inj h).symm⟩))
      · rename_i hf
        have hf : s.fatal = false := by simpa using hf
        rw [State.accept] at h
        split at h
        · rename_i why hd
          exact .inr (.inr (.inr (.inl ⟨w, rest, why, rfl, hr, hf, hd, (Host.Outcome.next.inj h).symm⟩)))
        · rename_i i hd
          exact .inr (.inr (.inr (.inr (.inl ⟨w, rest, i, rfl, hr, hf, hd, h⟩))))
    | port act =>
      simp only [hh] at h
      exact .inr (.inr (.inr (.inr (.inr ⟨act, rest, rfl, h⟩))))

end Sys2Proof.Machine
end

