-- ==== Sys2Proof/Laws/Tables.lean ====
section
/-! SUPPORT. The built tables in a form the kernel reads fast: each table as one number, byte `i` of it being entry `i` (R23). -/

namespace Sys2Proof.Machine

/-- `EXP` as one number, entry 0 lowest. -/
def expPacked : Nat := 0x018E47ADD86C361B83CFE9FA7DB0582C160B8BCBEBFBF3F7F5F47A3D90482412098A45AC562B9BC3EFF9F279B259A251A653A7DDE070381C0E078DC86432198241AE57A5DC6E3795C46231964BABDBE3FFF1F67BB3D7E5FC7E3F91C663BFD1E673B7D5E472399249AA55A452299A4DA8542A158442219E4FA9DA6DB85C2E1785CC663397C5EC763B93C7EDF87C3E1F81CE67BDD068341A0D884422118643AFD9E271B65BA3DFE1FE7FB1D66BBBD3E7FDF0783C1E0F89CA65BC5E2F99C261BE5FA1DE6FB9D269BA5DA05028140A058C46239FC1EE77B5D46A35944A259C4E279DC06030180C06038FC9EA75B45A2D984C261387CDE8743A1D8040201008040201

/-- `LOG` as one number, entry 0 lowest. -/
def logPacked : Nat := 0xAF5850A8EAF4D674E8ADE7E6E9D5AE4FD72C757AEB16F50B51A0A99CB05F59CB5A3ECCBBB18660FBAA559D29523BA16CF66F0C7FEC4917C476A47BB7D8432D1FA2416D4753393C849E5D2A14ABD356F261BEFCDCB2978790CDCFBC955BD13F372E892023D99244117CB4B8267799A5E318FEC531EDDE4A670D63808CF7C0700757A7F373ACE5D44E2B79150A9F9B5ECA3DBA85FA54283A6B6E7E48C3A3B6421E404638835C13D2F1BDDB968FCE94D03688229110B32598E2FD30DD66628BBF06A672E44D78099AC9B9F9276A7DC2B51D458212F0DA8E9335210F24E12F658A05714C08C8F869C11C81EF8D340EE064044BC7681BEE33DF03C61A3202190100FF

/-- Byte `i` of a packed table. -/
def packedAt (p i : Nat) : Byte := BitVec.ofNat 8 (p >>> (8 * i))

theorem built_exp_packed : ∀ i : Fin 256, Tables.built.exp[i.val] = packedAt expPacked i.val := by decide +kernel

theorem built_log_packed : ∀ i : Fin 256, Tables.built.log[i.val] = packedAt logPacked i.val := by decide +kernel

theorem expAt_built (v : Byte) : Tables.built.expAt v = packedAt expPacked v.toNat := built_exp_packed ⟨v.toNat, v.isLt⟩

theorem logAt_built (v : Byte) : Tables.built.logAt v = packedAt logPacked v.toNat := built_log_packed ⟨v.toNat, v.isLt⟩

theorem expMod_built (n : Nat) : Tables.built.expMod n = packedAt expPacked (n % 255) :=
  built_exp_packed ⟨n % 255, Nat.lt_trans (Nat.mod_lt _ (by decide)) (by decide)⟩

/-- Multiplication over the built tables, on packed reads (R91). -/
theorem gfMul_built (a b : Byte) : gfMul Tables.built a b =
    if a = 0 ∨ b = 0 then 0
    else packedAt expPacked (((packedAt logPacked a.toNat).toNat + (packedAt logPacked b.toNat).toNat) % 255) := by
  rw [gfMul, expMod_built, logAt_built, logAt_built]

end Sys2Proof.Machine
end

