-- ==== Sys2Proof/Tests/Slice0.lean ====
section
/-! SUPPORT. Tests of this model against the worked examples and vectors of the spec (R78, `95_test_vectors.md`), the smoke tests of WellFormed, and a witness for the hypotheses of every statement. Every expected value is the spec's. -/

namespace Sys2Proof.Tests

open Sys2Proof Sys2Proof.Machine

set_option Elab.async false

/-! ### Helpers -/

/-- The outcome is a next state that passes a check. -/
def passes (o : Result) (check : State → Bool) : Bool :=
  match o with
  | .next t => check t
  | .fault _ => false
  | .refused _ => false

theorem next_of_passes {o : Result} {check : State → Bool} (h : passes o check = true) :
    ∃ t, o = .next t ∧ check t = true := by
  cases o with
  | next t => exact ⟨t, rfl, h⟩
  | fault r => cases h
  | refused r => cases h

/-- A command that has ended with this code and cause. -/
def ended (t : State) (code : Byte) (cause : Word32) : Bool := t.errcode == code && t.errinfo == cause

/-- The engine of the vectors: tables built, everything else zero, `MAXLEN = 2048`. -/
def eng : State := { State.reset.initialise with maxLen := 2048 }

def s1 : List Byte := [0x01, 0xF3, 0x84, 0xAB, 0x8E, 0xEF]
def s2 : List Byte := [0x02, 0xCB, 0xA0, 0x82, 0xB3, 0x55]
def s3 : List Byte := [0x03, 0x50, 0x41, 0x45, 0x51, 0xD5]
def s5 : List Byte := [0x05, 0xB2, 0x7B, 0x83, 0x35, 0x07]
def hello : List Byte := [0x68, 0x65, 0x6C, 0x6C, 0x6F]
def coeffs1 : List Byte := [0xA7, 0x11, 0x5C, 0xE3, 0x00]
def coeffs2 : List Byte := [0x3C, 0xF0, 0x9B, 0x01, 0x80]

/-- Registers of the vectors: `e1 = 53`, `e2 = CA`, `e3 = 00`, `e4 = 01`, `e5 = 02`, `e6 = FF`, `e7 = 1D`. -/
def labRegs : State := (((((eng.setE 1 0x53).setE 2 0xCA).setE 4 0x01).setE 5 0x02).setE 6 0xFF).setE 7 0x1D

/-- `labRegs` with these slots filled. -/
def holding (slots : List (Slot × List Byte)) : State := slots.foldl (fun s p => s.setBuf p.1 p.2) labRegs

/-- The coefficient buffers of "hello" in slots 0 to 2 and a buffer of another length in slot 3. -/
def labEval : State := holding [(0, hello), (1, coeffs1), (2, coeffs2), (3, [0x68, 0xA7, 0x3C])]

/-- One short slot. -/
def labSlot : State := holding [(3, [0x68, 0xA7, 0x3C])]

/-- Shares 1, 3 and 5 of "hello". -/
def labShares : State := holding [(16, s1), (17, s3), (18, s5)]

/-- Pairs for LAGR0. -/
def labPairs (xs ys : List Byte) : State := holding [(5, xs), (6, ys)]

/-- A state with moves of the host. -/
def labWith (moves : List HostAction) : State := labSlot.withHost moves

/-- The same after a fatal stop. -/
def halted (moves : List HostAction) : State := (labSlot.complete 0x81 0).withHost moves

/-- The state after reset, with moves of the host. -/
def cold (moves : List HostAction) : State := State.reset.withHost moves

/-! ### WellFormed: one ill-formed term for each check (R74) -/

theorem test_wellFormed_refuses :
    (Instr.pevalv 0 1 0 4294967296).wellFormed = false ∧ (Instr.pshare 0 1 0 4294967296).wellFormed = false ∧
    (Instr.combine 0 1 4294967296).wellFormed = false ∧ (Instr.ldb 0 1 4294967296).wellFormed = false ∧
    (Instr.stb 0 1 4294967296).wellFormed = false ∧ (Instr.setlen 1 4294967296).wellFormed = false := by decide

theorem test_wellFormed_accepts_the_largest_numbers :
    (Instr.pevalv 0 1 0 4294967295).wellFormed = true ∧ (Instr.setlen 255 4294967295).wellFormed = true ∧
    (Instr.ldb 15 255 4294967295).wellFormed = true := by decide

/-! ### Decoding: words written out in `95_test_vectors.md` -/

theorem test_decode_scalar :
    decode 0x1007010200000000 = .ok (.gfadd 7 1 2) ∧ decode 0x1103010200000000 = .ok (.gfmul 3 1 2) ∧
    decode 0x1204030200000000 = .ok (.gfdiv 4 3 2) ∧ decode 0x1305010000000000 = .ok (.gfinv 5 1) ∧
    decode 0x1409080000000000 = .ok (.gfexp 9 8) ∧ decode 0x1508010000000000 = .ok (.gflog 8 1) := by decide +kernel

theorem test_decode_vector :
    decode 0x2005030300000000 = .ok (.vadd 5 3 3) ∧ decode 0x2106000100000000 = .ok (.vmul 6 0 1) ∧
    decode 0x2203000000000000 = .ok (.vzero 3) ∧ decode 0x20FFFFFF00000000 = .ok (.vadd 255 255 255) ∧
    decode 0x21FFFF0F00000000 = .ok (.vmul 255 255 15) := by decide +kernel

/-- PEVAL has no word in the vectors: op 0x30, `a` = ed, `b` = ba, `c` = ex by the row of R72. -/
theorem test_decode_evaluator :
    decode 0x3001030200000000 = .ok (.peval 1 3 2) ∧ decode 0x3109FE0200000002 = .ok (.pevalv 9 254 2 2) ∧
    decode 0x31080002FFFFFFFF = .ok (.pevalv 8 0 2 4294967295) ∧
    decode 0x3210000100000003 = .ok (.pshare 16 0 1 3) := by decide +kernel

theorem test_decode_interpolator :
    decode 0x40000B0600000000 = .ok (.lagr0 0 11 6) ∧ decode 0x4120FE0000000003 = .ok (.combine 32 254 3) ∧
    decode 0x41FF0000FFFFFFFF = .ok (.combine 255 0 4294967295) := by decide +kernel

theorem test_decode_data_movement :
    decode 0x500F0000000000FF = .ok (.ldi 15 0xFF) ∧ decode 0x5102030000000003 = .ok (.ldb 2 3 3) ∧
    decode 0x5201030000000003 = .ok (.stb 1 3 3) ∧ decode 0x5300040000000801 = .ok (.setlen 4 2049) := by decide +kernel

/-- V-I1 to V-I13, each with the first check of R76 that its word fails. -/
theorem test_illegal_words :
    decode 0x0000000000000000 = .error .unassignedOpcode ∧ decode 0xFFFFFFFFFFFFFFFF = .error .unassignedOpcode ∧
    decode 0x1010000000000000 = .error .registerOutOfRange ∧ decode 0x1300010100000000 = .error .fieldNotZero ∧
    decode 0x5001000000000100 = .error .immediateTooWide ∧ decode 0x2200010000000000 = .error .fieldNotZero ∧
    decode 0x5301030000000001 = .error .fieldNotZero ∧ decode 0x1600000000000000 = .error .unassignedOpcode ∧
    decode 0x4120100100000003 = .error .fieldNotZero ∧ decode 0x1003010200000001 = .error .numberNotZero ∧
    decode 0x2104051000000000 = .error .registerOutOfRange ∧ decode 0x3300000000000000 = .error .unassignedOpcode ∧
    decode 0x5400000000000000 = .error .unassignedOpcode := by decide +kernel

/-- Section 2.6 names the words the other way round, too. -/
theorem test_encode_the_largest_operands :
    encode (.gfadd 15 15 15) = 0x100F0F0F00000000 ∧ encode (.setlen 255 4294967295) = 0x5300FF00FFFFFFFF ∧
    encode (.combine 255 0 4294967295) = 0x41FF0000FFFFFFFF := by decide +kernel

theorem test_written_form :
    Instr.written (.pshare 16 0 1 3) = "PSHARE b16, b0, e1, 3" ∧ Instr.written (.lagr0 0 5 6) = "LAGR0 e0, b5, b6" := by
  decide +kernel

/-! ### Scalar commands (section 2.1, program P1) -/

theorem test_gfadd : passes (exec (.gfadd 7 1 2) labRegs) (fun t => t.e 7 == 0x99 && ended t 0 0) = true := by decide +kernel
theorem test_gfadd_same_register : passes (exec (.gfadd 1 1 1) labRegs) (fun t => t.e 1 == 0x00) = true := by decide +kernel
theorem test_gfmul : passes (exec (.gfmul 3 1 2) labRegs) (fun t => t.e 3 == 0x8F && t.pc == 1) = true := by decide +kernel
theorem test_gfmul_same_register : passes (exec (.gfmul 1 1 1) labRegs) (fun t => t.e 1 == 0xD5) = true := by decide +kernel
theorem test_gfdiv : passes (exec (.gfdiv 4 1 2) labRegs) (fun t => t.e 4 == 0x6D) = true := by decide +kernel
theorem test_gfdiv_zero_by_zero :
    passes (exec (.gfdiv 4 3 3) labRegs) (fun t => t.e 4 == 0x01 && ended t 0x80 0 && t.fatal && t.pc == 0) = true := by
  decide +kernel
theorem test_gfinv : passes (exec (.gfinv 5 5) labRegs) (fun t => t.e 5 == 0x8E) = true := by decide +kernel
theorem test_gfinv_zero :
    passes (exec (.gfinv 4 3) labRegs) (fun t => t.csr 0 == 0x00008107 && t.csr 1 == 0 && t.pc == 0) = true := by
  decide +kernel
theorem test_gfexp : passes (exec (.gfexp 3 7) labRegs) (fun t => t.e 3 == 0x30) = true := by decide +kernel
theorem test_gfexp_of_the_sentinel : passes (exec (.gfexp 12 6) labRegs) (fun t => t.e 12 == 0x01) = true := by decide +kernel
theorem test_gflog : passes (exec (.gflog 8 1) labRegs) (fun t => t.e 8 == 0xCE) = true := by decide +kernel
theorem test_gflog_of_zero : passes (exec (.gflog 11 3) labRegs) (fun t => t.e 11 == 0xFF && ended t 0 0) = true := by
  decide +kernel

/-! ### Vector commands (section 2.2) -/

theorem test_vadd_in_place :
    passes (exec (.vadd 0 0 1) ((eng.setBuf 0 [1, 2, 3, 4, 5, 6, 7]).setBuf 1 [0x10, 0x20, 0x30, 0x40, 0x50, 0x60, 0x70]))
      (fun t => t.buf 0 == [0x11, 0x22, 0x33, 0x44, 0x55, 0x66, 0x77]) = true := by decide +kernel
theorem test_vadd_unequal :
    passes (exec (.vadd 4 0 3) labEval) (fun t => t.len 4 == 0 && ended t 0x04 3) = true := by decide +kernel
theorem test_vmul :
    passes (exec (.vmul 1 0 1) (labRegs.setBuf 0 [0x68, 0x65, 0x80, 0xFF, 0x00, 0x01]))
      (fun t => t.buf 1 == [0x69, 0xC9, 0xF2, 0x66, 0x00, 0x53]) = true := by decide +kernel
theorem test_vzero : passes (exec (.vzero 3) labEval) (fun t => t.buf 3 == [0, 0, 0] && t.buf 2 == coeffs2) = true := by
  decide +kernel

/-! ### Polynomial Evaluator (section 2.3) -/

theorem test_peval : passes (exec (.peval 0 3 5) labEval) (fun t => t.e 0 == 0xCB) = true := by decide +kernel
theorem test_peval_empty : passes (exec (.peval 4 9 6) labEval) (fun t => t.e 4 == 0x00) = true := by decide +kernel
theorem test_pevalv : passes (exec (.pevalv 8 0 5 3) labEval) (fun t => t.buf 8 == [0xCB, 0xA0, 0x82, 0xB3, 0x55]) = true := by
  decide +kernel
theorem test_pevalv_aliased :
    passes (exec (.pevalv 1 0 5 3) labEval) (fun t => t.buf 1 == coeffs1 && ended t 0x03 1) = true := by decide +kernel
theorem test_pshare : passes (exec (.pshare 9 0 6 3) labEval) (fun t => t.buf 9 == [0xFF, 0x20, 0x20, 0xDC, 0x57, 0x2B]) = true := by
  decide +kernel
theorem test_pshare_length_before_zero_x :
    passes (exec (.pshare 12 0 3 4) labEval) (fun t => t.len 12 == 0 && ended t 0x04 3) = true := by decide +kernel

/-! ### Interpolator (section 2.4) -/

theorem test_lagr0 :
    passes (exec (.lagr0 0 5 6) (labPairs [0x01, 0x03, 0x05] [0xF3, 0x50, 0xB2])) (fun t => t.e 0 == 0x68 && t.xs.toList.all (· == 0) && t.ys.toList.all (· == 0)) = true := by
  decide +kernel
theorem test_lagr0_duplicate : passes (exec (.lagr0 0 5 6) (labPairs [0x01, 0x03, 0x01] [0xF3, 0x50, 0xB2])) (fun t => t.e 0 == 0 && ended t 0x07 2) = true := by
  decide +kernel
theorem test_combine :
    passes (exec (.combine 32 16 3) labShares) (fun t => t.buf 32 == hello && t.xs.toList.all (· == 0) && t.ys.toList.all (· == 0)) = true := by
  decide +kernel
theorem test_combine_short_before_unequal :
    passes (exec (.combine 32 16 3) (holding [(16, s1), (17, [0x02]), (18, [0x03, 0x01, 0x02])]))
      (fun t => t.len 32 == 0 && ended t 0x06 0x11) = true := by decide +kernel

/-! ### Data movement (section 2.5) -/

theorem test_ldi : passes (exec (.ldi 1 0xFF) labSlot) (fun t => t.e 1 == 0xFF) = true := by decide +kernel
theorem test_ldb : passes (exec (.ldb 1 3 2) labSlot) (fun t => t.e 1 == 0x3C) = true := by decide +kernel
theorem test_ldb_at_the_length :
    passes (exec (.ldb 2 3 3) labSlot) (fun t => t.e 2 == 0xCA && t.csr 0 == 0x00000205 && t.csr 1 == 3) = true := by
  decide +kernel
theorem test_stb : passes (exec (.stb 1 3 0) labSlot) (fun t => t.buf 3 == [0x53, 0xA7, 0x3C]) = true := by decide +kernel
theorem test_stb_never_appends :
    passes (exec (.stb 1 3 3) labSlot) (fun t => t.buf 3 == [0x68, 0xA7, 0x3C] && ended t 0x02 3) = true := by decide +kernel
theorem test_setlen_shrinks_and_wipes :
    passes (exec (.setlen 3 1) labSlot) (fun t => t.buf 3 == [0x68] && t.byte 3 1 == 0 && t.byte 3 2 == 0) = true := by
  decide +kernel
theorem test_setlen_above_maxlen :
    passes (exec (.setlen 4 2049) labSlot) (fun t => t.len 4 == 0 && ended t 0x02 0x801) = true := by decide +kernel

/-! ### The step and the host port (section 2.7, R57) -/

theorem test_refused_word :
    passes (step (halted [.issue 0x5004000000000001])) (fun t => t.e 4 == 0x01 && t.csr 0 == 0x00008107 && t.pc == 0) = true := by
  decide +kernel

theorem test_first_step_builds_the_tables :
    passes (step (cold [.issue 0x5001000000000007]))
      (fun t => t.csr 0 == 1 && t.e 1 == 0 && t.tables.exp[8] == 0x1D && t.tables.log[0] == 0xFF) = true := by decide +kernel

theorem test_placed_word_runs_first :
    passes (step (State.reset.withFetchWord 64 0x500100000000008E)) (fun t => t.e 1 == 0x8E && t.pc == 1) = true := by
  decide +kernel

theorem test_host_write_and_read :
    passes (step (halted [.port (.writeBuf 7 [0xAA, 0xBB])])) (fun t => t.buf 7 == [0xAA, 0xBB] && t.fatal) = true ∧
    (labWith [.port (.readBuf 3)]).hostGets = some (.buf 3 [0x68, 0xA7, 0x3C]) := by decide +kernel

/-! ### Witnesses: a concrete input that meets the hypotheses of each statement, clause by clause -/

theorem labRegs_fatal : labRegs.fatal = false := by decide +kernel

theorem witness_EncodeThenDecodeGivesTheCommand : ∃ i : Instr, i.wellFormed = true :=
  ⟨.ldb 15 255 4294967295, by decide⟩

theorem witness_DecodedWordIsTheCommandsWord : ∃ (w : CmdWord) (i : Instr), decode w = .ok i :=
  ⟨0x5300FF00FFFFFFFF, .setlen 255 4294967295, by decide +kernel⟩

theorem witness_OpcodeTableDecidesTheCommand :
    ∃ r ∈ opcodeTable, ∃ r' ∈ opcodeTable, r.covers 0x100F0F0F00000000 = true ∧ r'.covers 0x100F0F0F00000000 = true :=
  ⟨Instr.row (.gfadd 0 0 0), by decide, Instr.row (.gfadd 0 0 0), by decide, by decide, by decide⟩

theorem witness_StepRunsTheDecodedCommand : ∃ (s : State) (w : CmdWord) (rest : List HostAction) (i : Instr),
    s.host = .issue w :: rest ∧ s.ready = true ∧ s.fatal = false ∧ decode w = .ok i :=
  ⟨labWith [.issue 0x5001000000000007], 0x5001000000000007, [], .ldi 1 7, rfl, rfl, rfl, by decide +kernel⟩

theorem witness_IllegalWordOnlyReports : ∃ (s : State) (w : CmdWord) (rest : List HostAction) (why : Illegal),
    s.host = .issue w :: rest ∧ s.ready = true ∧ s.fatal = false ∧ decode w = .error why :=
  ⟨labWith [.issue 0x1300010100000000], 0x1300010100000000, [], .fieldNotZero, rfl, rfl, rfl, by decide +kernel⟩

theorem witness_HeldWordWaitsForTheTables : ∃ (s : State) (w : CmdWord) (rest : List HostAction), s.host = .issue w :: rest ∧ s.ready = false :=
  ⟨cold [.issue 0x5001000000000007], 0x5001000000000007, [], rfl, rfl⟩

theorem witness_HeldWordRunsInTheSecondStep : ∃ (s : State) (w : CmdWord) (rest : List HostAction) (i : Instr),
    s.host = .issue w :: rest ∧ s.ready = false ∧ s.fatal = false ∧ decode w = .ok i :=
  ⟨cold [.issue 0x5001000000000007], 0x5001000000000007, [], .ldi 1 7, rfl, rfl, rfl, by decide +kernel⟩

theorem witness_RefusedWordChangesNothing : ∃ (s : State) (w : CmdWord) (rest : List HostAction),
    s.host = .issue w :: rest ∧ s.ready = true ∧ s.fatal = true :=
  ⟨halted [.issue 0x5004000000000001], 0x5004000000000001, [], rfl, rfl, rfl⟩

theorem witness_EndOfTheHostsMoves :
    (∃ s : State, s.host = [] ∧ s.ready = true ∧ s.fatal = true) ∧
    (∃ s : State, s.host = [] ∧ s.ready = true ∧ s.fatal = false) :=
  ⟨⟨halted [], rfl, rfl, rfl⟩, ⟨labWith [], rfl, rfl, rfl⟩⟩

theorem witness_EveryIssuedWordHasANextState : ∃ s : State, ∃ w rest, s.host = .issue w :: rest :=
  ⟨labWith [.issue 0xFFFFFFFFFFFFFFFF], 0xFFFFFFFFFFFFFFFF, [], rfl⟩

theorem witness_FlagsOnlyRiseBetweenResets : ∃ s t : State,
    (∀ rest, s.host ≠ .port .reset :: rest) ∧ step s = .next t ∧ s.ready = true ∧ s.esticky = true ∧ s.fatal = true := by
  obtain ⟨t, ht, -⟩ := next_of_passes (o := step (halted [.issue 0])) (check := fun _ => true) (by decide +kernel)
  exact ⟨halted [.issue 0], t, fun _ h => (by cases h), ht, rfl, by decide, rfl⟩

theorem witness_FatalStopFreezesTheEngine :
    (∃ s t : State, s.ready = true ∧ s.fatal = true ∧ (∀ rest, s.host ≠ .port .reset :: rest) ∧ step s = .next t ∧
      ∀ b q rest, s.host ≠ .port (.writeBuf b q) :: rest) ∧
    (∃ s t : State, s.ready = true ∧ s.fatal = true ∧ (∀ rest, s.host ≠ .port .reset :: rest) ∧ step s = .next t ∧
      s.host = [.port (.writeBuf 7 [0xAA])]) := by
  obtain ⟨t, ht, -⟩ := next_of_passes (o := step (halted [.port (.readCsr 0)])) (check := fun _ => true) (by decide +kernel)
  obtain ⟨u, hu, -⟩ := next_of_passes (o := step (halted [.port (.writeBuf 7 [0xAA])])) (check := fun _ => true)
    (by decide +kernel)
  exact ⟨⟨halted [.port (.readCsr 0)], t, rfl, rfl, fun _ h => (by cases h), ht, fun _ _ _ h => (by cases h)⟩,
    ⟨halted [.port (.writeBuf 7 [0xAA])], u, rfl, rfl, fun _ h => (by cases h), hu, rfl⟩⟩

theorem witness_CommandsKeepTablesAndConstants : ∃ (i : Instr) (s t : State), exec i s = .next t :=
  ⟨.gfadd 7 1 2, labRegs, _, State.finish_eq _⟩

theorem witness_ErroringCommandHasNoOtherEffect :
    (∃ (i : Instr) (s t : State), exec i s = .next t ∧ t.errcode ≠ 0) ∧ (∃ (i : Instr) (s t : State), exec i s = .next t ∧ t.errcode = 0) := by
  obtain ⟨t, ht, hc⟩ := next_of_passes (o := exec (.ldb 2 4 0) labRegs) (check := fun t => t.errcode != 0) (by decide +kernel)
  exact ⟨⟨_, _, t, ht, by simpa using hc⟩, ⟨.gfadd 7 1 2, labRegs, _, State.finish_eq _, by simp⟩⟩

theorem witness_PcCountsCompletedCommands :
    (∃ (i : Instr) (s t : State), exec i s = .next t ∧ isFatalCode t.errcode = false) ∧
    (∃ (i : Instr) (s t : State), exec i s = .next t ∧ isFatalCode t.errcode = true) := by
  obtain ⟨t, ht, hc⟩ := next_of_passes (o := exec (.gfinv 4 3) labRegs) (check := fun t => isFatalCode t.errcode)
    (by decide +kernel)
  exact ⟨⟨.gfadd 7 1 2, labRegs, _, State.finish_eq _, by simp⟩, ⟨_, _, t, ht, hc⟩⟩

theorem witness_PcAndPendingWordsAddUp : ∃ s t : State,
    (∀ rest, s.host ≠ .port .reset :: rest) ∧ step s = .next t ∧ s.fatal = false ∧ t.fatal = false := by
  obtain ⟨t, ht, hc⟩ := next_of_passes (o := step (labWith [.issue 0x5001000000000007])) (check := fun t => !t.fatal)
    (by decide +kernel)
  exact ⟨labWith [.issue 0x5001000000000007], t, fun _ h => (by cases h), ht, rfl, by simpa using hc⟩

theorem witness_OnlyDivideAndInverseAreFatal :
    (∃ (i : Instr) (s t : State), exec i s = .next t ∧ s.fatal = false ∧ t.fatal = true) ∧
    (∃ (i : Instr) (s t : State), exec i s = .next t ∧ s.fatal = false ∧ t.fatal = false) := by
  obtain ⟨t, ht, hc⟩ := next_of_passes (o := exec (.gfdiv 4 1 3) labRegs) (check := fun t => t.fatal) (by decide +kernel)
  exact ⟨⟨_, _, t, ht, labRegs_fatal, hc⟩, ⟨.gfadd 7 1 2, labRegs, _, State.finish_eq _, labRegs_fatal, by simp [labRegs_fatal]⟩⟩

theorem witness_StatusFieldsAffectNoCommand : ∃ (i : Instr) (s t : State), exec i s = .next t := ⟨.vzero 3, labSlot, _, State.finish_eq _⟩

theorem witness_TableInvariants : (∃ b : Byte, b ≠ 0) ∧ (∃ i : Byte, i.toNat ≤ 254) :=
  ⟨⟨255, by decide⟩, ⟨254, by decide⟩⟩

theorem witness_FieldLaws : ∃ a b : Byte, a ≠ 0 ∧ b ≠ 0 := ⟨0x53, 0xCA, by decide, by decide⟩

theorem witness_GfmulResultAndFrame :
    (∃ (s : State) (a b : Reg), s.e a = 0 ∨ s.e b = 0) ∧ (∃ (s : State) (a : Reg), s.tables = Tables.built ∧ s.e a = 1) :=
  ⟨⟨labRegs, 1, 3, by decide +kernel⟩, ⟨labRegs, 4, rfl, by decide +kernel⟩⟩

theorem witness_GfdivResultAndFatalStop :
    (∃ (s : State) (b : Reg), s.e b ≠ 0) ∧ (∃ (s : State) (b : Reg), s.e b = 0) :=
  ⟨⟨labRegs, 2, by decide +kernel⟩, ⟨labRegs, 3, by decide +kernel⟩⟩

theorem witness_GfinvResultAndFatalStop :
    (∃ (s : State) (a : Reg), s.e a ≠ 0) ∧ (∃ (s : State) (a : Reg), s.e a = 0) :=
  ⟨⟨labRegs, 1, by decide +kernel⟩, ⟨labRegs, 15, by decide +kernel⟩⟩

theorem witness_GfexpResultAndFrame :
    (∃ (s : State) (a : Reg), s.tables = Tables.built ∧ s.e a = 0x00) ∧
    (∃ (s : State) (a : Reg), s.tables = Tables.built ∧ s.e a = 0xFF) :=
  ⟨⟨labRegs, 3, rfl, by decide +kernel⟩, ⟨labRegs, 6, rfl, by decide +kernel⟩⟩

theorem witness_GflogResultAndFrame : ∃ s : State, s.tables = Tables.built := ⟨labRegs, rfl⟩

theorem witness_VaddResultAndFrame :
    (∃ (s : State) (a b : Slot), s.len a = s.len b ∧ ∃ i, i < s.len a) ∧ (∃ (s : State) (a b : Slot), s.len a ≠ s.len b) :=
  ⟨⟨labEval, 0, 1, by decide +kernel, 4, by decide +kernel⟩, ⟨labEval, 0, 3, by decide +kernel⟩⟩

theorem witness_VmulResultAndFrame :
    (∃ (s : State) (a : Slot) (x : Reg) (i : Nat), i < s.len a ∧ s.e x = 0) ∧
    (∃ (s : State) (a : Slot) (x : Reg) (i : Nat), i < s.len a ∧ s.tables = Tables.built ∧ s.e x = 1) :=
  ⟨⟨labEval, 0, 3, 4, by decide +kernel, by decide +kernel⟩, ⟨labEval, 0, 4, 4, by decide +kernel, rfl, by decide +kernel⟩⟩

theorem witness_VzeroResultAndFrame : ∃ (s : State) (d : Slot) (i j : Nat), i < s.len d ∧ s.len d ≤ j :=
  ⟨labSlot, 3, 2, 3, by decide +kernel, by decide +kernel⟩

theorem witness_PevalResultAndFrame : ∃ (s : State) (a : Slot), s.len a = 0 := ⟨labEval, 9, by decide +kernel⟩

/-- Slots 254 and 255, the last legal block (V-E9), and the block of three in front of slot 3. -/
theorem witness_PevalvResultAndRejections_result :
    (∃ (s : State) (d a : Slot) (k : Nat), 1 ≤ k ∧ a.val + k = 256 ∧ ¬ (a.val ≤ d.val ∧ d.val ≤ a.val + k - 1) ∧
      ∀ j, j < k → s.len (slotAt a j) = s.len a) ∧
    (∃ (s : State) (d a : Slot) (k : Nat), 1 ≤ k ∧ a.val + k ≤ 256 ∧ ¬ (a.val ≤ d.val ∧ d.val ≤ a.val + k - 1) ∧
      (∀ j, j < k → s.len (slotAt a j) = s.len a) ∧ ∃ p, p < s.len a) :=
  ⟨⟨holding [(254, [0x01]), (255, [0x02])], 9, 254, 2, by decide, by decide, by decide, by decide +kernel⟩,
    ⟨labEval, 8, 0, 3, by decide, by decide, by decide, by decide +kernel, 4, by decide +kernel⟩⟩

/-- V-E7, V-E8, V-E10 and V-E11, and the destination as the last source slot. -/
theorem witness_PevalvResultAndRejections_errors :
    (∃ (a : Slot) (k : Nat), k = 0 ∨ a.val + k > 256) ∧ (∃ (a : Slot) (k : Nat), k ≠ 0 ∧ a.val + k = 257) ∧
    (∃ (d a : Slot) (k : Nat), 1 ≤ k ∧ a.val + k ≤ 256 ∧ a.val ≤ d.val ∧ d.val = a.val + k - 1) ∧
    (∃ (s : State) (d a : Slot) (k j : Nat), 1 ≤ k ∧ a.val + k ≤ 256 ∧ ¬ (a.val ≤ d.val ∧ d.val ≤ a.val + k - 1) ∧
      1 ≤ j ∧ j < k ∧ s.len (slotAt a j) ≠ s.len a ∧ ∀ i, 1 ≤ i → i < j → s.len (slotAt a i) = s.len a) :=
  ⟨⟨0, 0, by decide⟩, ⟨254, 3, by decide, by decide⟩, ⟨2, 0, 3, by decide, by decide, by decide, by decide⟩,
    ⟨labEval, 8, 0, 4, 3, by decide, by decide, by decide, by decide, by decide, by decide +kernel,
      fun i h1 h2 => (by decide +kernel : ∀ i, i < 3 → labEval.len (slotAt 0 i) = labEval.len 0) i h2⟩⟩

theorem witness_PshareResultAndRejections_result :
    ∃ (s : State) (d a : Slot) (x : Reg) (k : Nat), 1 ≤ k ∧ a.val + k ≤ 256 ∧ s.len a + 1 ≤ s.maxLen.toNat ∧
      ¬ (a.val ≤ d.val ∧ d.val ≤ a.val + k - 1) ∧ (∀ j, j < k → s.len (slotAt a j) = s.len a) ∧ s.e x ≠ 0 ∧
      ∃ p, p < s.len a :=
  ⟨labEval, 9, 0, 6, 3, by decide, by decide, by decide +kernel, by decide, by decide +kernel, by decide +kernel, 4,
    by decide +kernel⟩

/-- A slot of length `MAXLEN`, a destination at both ends of the block, V-E18 and V-E14. -/
theorem witness_PshareResultAndRejections_errors :
    (∃ (s : State) (a : Slot) (k : Nat), k ≠ 0 ∧ a.val + k ≤ 256 ∧ s.len a + 1 > s.maxLen.toNat) ∧
    (∃ (s : State) (d a : Slot) (k : Nat), 1 ≤ k ∧ a.val + k ≤ 256 ∧ s.len a + 1 ≤ s.maxLen.toNat ∧ a.val = d.val ∧
      d.val ≤ a.val + k - 1) ∧
    (∃ (s : State) (d a : Slot) (k j : Nat), 1 ≤ k ∧ a.val + k ≤ 256 ∧ s.len a + 1 ≤ s.maxLen.toNat ∧
      ¬ (a.val ≤ d.val ∧ d.val ≤ a.val + k - 1) ∧ 1 ≤ j ∧ j < k ∧ s.len (slotAt a j) ≠ s.len a ∧
      ∀ i, 1 ≤ i → i < j → s.len (slotAt a i) = s.len a) ∧
    (∃ (s : State) (d a : Slot) (x : Reg) (k : Nat), 1 ≤ k ∧ a.val + k ≤ 256 ∧ s.len a + 1 ≤ s.maxLen.toNat ∧
      ¬ (a.val ≤ d.val ∧ d.val ≤ a.val + k - 1) ∧ (∀ j, j < k → s.len (slotAt a j) = s.len a) ∧ s.e x = 0) :=
  ⟨⟨labEval.setLen 0 2048, 0, 1, by decide, by decide, by decide +kernel⟩,
    ⟨labEval, 0, 0, 3, by decide, by decide, by decide +kernel, by decide, by decide⟩,
    ⟨labEval, 12, 0, 4, 3, by decide, by decide, by decide +kernel, by decide, by decide, by decide, by decide +kernel,
      fun i h1 h2 => (by decide +kernel : ∀ i, i < 3 → labEval.len (slotAt 0 i) = labEval.len 0) i h2⟩,
    ⟨labEval, 9, 0, 3, 3, by decide, by decide, by decide +kernel, by decide, by decide +kernel, by decide +kernel⟩⟩

theorem witness_VectorHornerIsScalarHornerAtEachPosition : ∃ (bufs : List (List Byte)) (top : List Byte) (p : Nat),
    (∀ q ∈ bufs, q.length = top.length) ∧ p < top.length :=
  ⟨[hello, coeffs1], coeffs2, 4, by decide, by decide⟩

/-- The first two rows of `lagrange0`: the same pairs permuted. -/
theorem witness_LagrangeIgnoresTheOrderOfPairs : ∃ pairs pairs' : List (Byte × Byte),
    pairs.Perm pairs' ∧ pairs ≠ pairs' ∧ (pairs.map Prod.fst).Nodup :=
  ⟨[(1, 0xF3), (3, 0x50), (5, 0xB2)], [(3, 0x50), (1, 0xF3), (5, 0xB2)], .swap .., by decide, by decide⟩

theorem witness_LagrangeRecoversTheConstantTerm :
    (∃ xs q : List Byte, xs.Nodup ∧ q.length ≤ xs.length ∧ q = [0x68, 0xA7, 0x3C]) ∧
    (∃ xs q : List Byte, xs.Nodup ∧ q.length ≤ xs.length ∧ xs = []) :=
  ⟨⟨[1, 3, 5], _, by decide, by decide, rfl⟩, ⟨_, [], by decide, by decide, rfl⟩⟩

theorem witness_LagrangeAtAZeroCoordinate : ∃ (xs ys : List Byte) (i : Nat),
    xs.Nodup ∧ ys.length = xs.length ∧ i < xs.length ∧ xs.getD i 1 = 0 :=
  ⟨[1, 2, 0], [0xF3, 0xCB, 0x68], 2, by decide, by decide, by decide, by decide⟩

/-- Two pairs, the fewest. -/
theorem witness_Lagr0ResultAndRejections_result : ∃ (s : State) (a b : Slot), s.xs = Scratch.clear ∧ s.ys = Scratch.clear ∧
    2 ≤ s.len a ∧ s.len b = s.len a ∧ (s.buf a).Nodup :=
  ⟨labPairs [1, 2] [1, 2], 5, 6, rfl, rfl, by decide +kernel, by decide +kernel, by decide +kernel⟩

/-- V-L1, V-L3 and V-L4. -/
theorem witness_Lagr0ResultAndRejections_errors :
    (∃ (s : State) (a : Slot), s.len a = 1 ∧ s.len a < 2) ∧
    (∃ (s : State) (a b : Slot), 2 ≤ s.len a ∧ s.len b ≠ s.len a) ∧
    (∃ (s : State) (a b : Slot) (i j : Nat), 2 ≤ s.len a ∧ s.len b = s.len a ∧ i < j ∧ j < s.len a ∧
      s.byte a i = s.byte a j ∧ ∀ i' j', i' < j' → j' < j → s.byte a i' ≠ s.byte a j') :=
  ⟨⟨labPairs [1] [0xAA], 5, by decide +kernel, by decide +kernel⟩,
    ⟨labPairs [1, 3, 5] [1, 2], 5, 6, by decide +kernel, by decide +kernel⟩,
    ⟨labPairs [1, 3, 1] [0xF3, 0x50, 0xB2], 5, 6, 0, 2, by decide +kernel, by decide +kernel, by decide, by decide +kernel,
      by decide +kernel, fun i' j' h1 h2 => by
        obtain ⟨rfl, rfl⟩ : i' = 0 ∧ j' = 1 := by omega
        decide +kernel⟩⟩

theorem witness_CombineResultAndRejections_result : ∃ (s : State) (d a : Slot) (k : Nat), s.xs = Scratch.clear ∧
    s.ys = Scratch.clear ∧ 2 ≤ k ∧ a.val + k ≤ 256 ∧ ¬ (a.val ≤ d.val ∧ d.val ≤ a.val + k - 1) ∧ 2 ≤ s.len a ∧
    (∀ j, j < k → s.len (slotAt a j) = s.len a) ∧ ((List.range k).map fun j => s.byte (slotAt a j) 0).Nodup ∧
    ∃ p, 1 ≤ p ∧ p < s.len a :=
  ⟨labShares, 32, 16, 3, rfl, rfl, by decide, by decide, by decide, by decide +kernel, by decide +kernel,
    by decide +kernel, 5, by decide, by decide +kernel⟩

/-- The first three clauses of COMBINE's checks: V-C16, V-C3 and V-C1. -/
theorem witness_CombineResultAndRejections_errors_of_the_numbers :
    (∃ (a : Slot) (k : Nat), a.val + k = 257 ∧ a.val + k > 256) ∧
    (∃ (d a : Slot) (k : Nat), a.val + k ≤ 256 ∧ 1 ≤ k ∧ a.val ≤ d.val ∧ d.val = a.val + k - 1) ∧
    (∃ (d a : Slot) (k : Nat), a.val + k ≤ 256 ∧ ¬ (1 ≤ k ∧ a.val ≤ d.val ∧ d.val ≤ a.val + k - 1) ∧ k = 1 ∧ k < 2) ∧
    (∃ (d a : Slot) (k : Nat), a.val + k ≤ 256 ∧ ¬ (1 ≤ k ∧ a.val ≤ d.val ∧ d.val ≤ a.val + k - 1) ∧ k = 0 ∧ k < 2) :=
  ⟨⟨254, 3, by decide, by decide⟩, ⟨18, 16, 3, by decide, by decide, by decide, by decide⟩,
    ⟨32, 16, 1, by decide, by decide, rfl, by decide⟩, ⟨16, 16, 0, by decide, by decide, rfl, by decide⟩⟩

/-- V-C8, where every share is short, and V-C6. -/
theorem witness_CombineResultAndRejections_errors_short :
    (∃ (s : State) (d a : Slot) (k j : Nat), a.val + k ≤ 256 ∧ ¬ (a.val ≤ d.val ∧ d.val ≤ a.val + k - 1) ∧ 2 ≤ k ∧ j < k ∧
      s.len (slotAt a j) < 2 ∧ (∀ i, i < j → 2 ≤ s.len (slotAt a i)) ∧ j = 0) ∧
    (∃ (s : State) (d a : Slot) (k j : Nat), a.val + k ≤ 256 ∧ ¬ (a.val ≤ d.val ∧ d.val ≤ a.val + k - 1) ∧ 2 ≤ k ∧ j < k ∧
      s.len (slotAt a j) < 2 ∧ (∀ i, i < j → 2 ≤ s.len (slotAt a i)) ∧ j = 1) :=
  ⟨⟨holding [(16, [1]), (17, [1])], 32, 16, 2, 0, by decide, by decide, by decide, by decide, by decide +kernel,
      by decide, rfl⟩,
    ⟨holding [(16, s1), (17, [2]), (18, [3, 1, 2])], 32, 16, 3, 1, by decide, by decide, by decide, by decide,
      by decide +kernel, by decide +kernel, rfl⟩⟩

/-- V-C7. -/
theorem witness_CombineResultAndRejections_errors_lengths : ∃ (s : State) (d a : Slot) (k j : Nat), a.val + k ≤ 256 ∧
    ¬ (a.val ≤ d.val ∧ d.val ≤ a.val + k - 1) ∧ 2 ≤ k ∧ (∀ i, i < k → 2 ≤ s.len (slotAt a i)) ∧ 1 ≤ j ∧ j < k ∧
    s.len (slotAt a j) ≠ s.len a ∧ ∀ i, 1 ≤ i → i < j → s.len (slotAt a i) = s.len a :=
  ⟨holding [(16, s1), (17, s3), (18, [0x05, 0xB2, 0x7B])], 32, 16, 3, 2, by decide, by decide, by decide,
    by decide +kernel, by decide, by decide, by decide +kernel, fun i h1 h2 => by
      obtain rfl : i = 1 := by omega
      decide +kernel⟩

/-- Like V-C9: the first and the last of three x-coordinates are equal. -/
theorem witness_CombineResultAndRejections_errors_duplicate : ∃ (s : State) (d a : Slot) (k i j : Nat), a.val + k ≤ 256 ∧
    ¬ (a.val ≤ d.val ∧ d.val ≤ a.val + k - 1) ∧ 2 ≤ k ∧ 2 ≤ s.len a ∧
    (∀ i', i' < k → s.len (slotAt a i') = s.len a) ∧ i < j ∧ j < k ∧ s.byte (slotAt a i) 0 = s.byte (slotAt a j) 0 ∧
    ∀ i' j', i' < j' → j' < j → s.byte (slotAt a i') 0 ≠ s.byte (slotAt a j') 0 :=
  ⟨holding [(16, s1), (17, s2), (18, s1)], 32, 16, 3, 0, 2, by decide, by decide, by decide, by decide +kernel,
    by decide +kernel, by decide, by decide, by decide +kernel, fun i' j' h1 h2 => by
      obtain ⟨rfl, rfl⟩ : i' = 0 ∧ j' = 1 := by omega
      decide +kernel⟩

/-- The "hello" scenario: shares 1, 3 and 5 lie on the polynomials of the three coefficient buffers. -/
theorem witness_CombineRecoversTheSecret : ∃ (s : State) (d a : Slot) (k : Nat) (coeffs : Nat → List Byte),
    s.tables = Tables.built ∧ 2 ≤ k ∧ a.val + k ≤ 256 ∧ ¬ (a.val ≤ d.val ∧ d.val ≤ a.val + k - 1) ∧ 2 ≤ s.len a ∧
    (∀ j, j < k → s.len (slotAt a j) = s.len a) ∧
    ((List.range k).map fun j => s.byte (slotAt a j) 0).Nodup ∧
    (∀ p, p + 1 < s.len a → (coeffs p).length ≤ k ∧
      ∀ j, j < k → s.byte (slotAt a j) (p + 1) = horner Tables.built (coeffs p) (s.byte (slotAt a j) 0)) := by
  have hl : labShares.len 16 = 6 := by decide +kernel
  have hp : ∀ p, p < 5 → ∀ j, j < 3 → labShares.byte (slotAt 16 j) (p + 1) =
      horner Tables.built [hello.getD p 0, coeffs1.getD p 0, coeffs2.getD p 0] (labShares.byte (slotAt 16 j) 0) := by
    decide +kernel
  exact ⟨labShares, 32, 16, 3, fun p => [hello.getD p 0, coeffs1.getD p 0, coeffs2.getD p 0], rfl, by decide, by decide,
    by decide, by decide +kernel, by decide +kernel, by decide +kernel,
    fun p h => ⟨Nat.le_refl 3, hp p (by omega)⟩⟩

/-- The last byte and the offset equal to the length, V-D3 and V-D4. -/
theorem witness_LdbResultAndRejection :
    (∃ (s : State) (a : Slot) (off : Nat), off < s.len a ∧ off + 1 = s.len a) ∧
    (∃ (s : State) (a : Slot) (off : Nat), s.len a ≤ off ∧ s.len a = off) :=
  ⟨⟨labSlot, 3, 2, by decide +kernel, by decide +kernel⟩, ⟨labSlot, 3, 3, by decide +kernel, by decide +kernel⟩⟩

theorem witness_StbResultAndRejection :
    (∃ (s : State) (a : Slot) (off : Nat), off < s.len a) ∧ (∃ (s : State) (a : Slot) (off : Nat), s.len a ≤ off) :=
  ⟨⟨labSlot, 3, 0, by decide +kernel⟩, ⟨labSlot, 4, 0, by decide +kernel⟩⟩

/-- A slot, filled by the host, in a state that meets the invariant. -/
theorem labSlot_meets_the_invariant : labSlot.Inv where
  memWf := by decide +kernel
  zeroTail := by decide +kernel
  lenBound := fun b => by
    simp only [labSlot, holding, labRegs, eng, State.reset, State.len, State.setE, List.foldl, State.setBuf_lens,
      Vector.get_eq_getElem, Vector.getElem_set]
    split <;> simp
  maxLenBound := by decide +kernel
  xsClear := rfl
  ysClear := rfl
  tablesBuilt := fun _ => rfl
  codeKnown := by decide
  fatalCode := by decide
  stickyCode := by decide
  zeroInfo := by decide
  beforeReady := by decide

/-- V-D8, V-D9, V-D11 and V-D12: shrink, grow, `MAXLEN` itself and one above. -/
theorem witness_SetlenResultAndRejection :
    (∃ (s : State) (a : Slot) (len i : Nat), len ≤ s.maxLen.toNat ∧ len ≤ i ∧ i < s.len a) ∧
    (∃ (s : State) (a : Slot) (len : Nat), len = s.maxLen.toNat ∧ s.Inv ∧ s.len a ≤ len) ∧
    (∃ (s : State) (len : Nat), s.maxLen.toNat < len ∧ len = 2049) :=
  ⟨⟨labSlot, 3, 1, 1, by decide +kernel, by decide, by decide +kernel⟩,
    ⟨labSlot, 3, 2048, by decide +kernel, labSlot_meets_the_invariant, by decide +kernel⟩,
    ⟨labSlot, 2049, by decide +kernel, rfl⟩⟩

theorem witness_EveryStepKeepsTheInvariant : ∃ s t : State, s.Inv ∧ step s = .next t := by
  obtain ⟨t, ht, -⟩ := next_of_passes (o := step labSlot) (check := fun _ => true) (by decide +kernel)
  exact ⟨labSlot, t, labSlot_meets_the_invariant, ht⟩

theorem witness_ZeroTailAtEveryPoint :
    (∃ s : State, s.Inv ∧ ∃ b i, s.len b ≤ i ∧ s.len b = i ∧ 0 < i) ∧
    (∃ s t : State, s.Inv ∧ step s = .next t ∧ ∃ b i, t.len b ≤ i) := by
  obtain ⟨t, ht, hc⟩ := next_of_passes (o := step labSlot) (check := fun t => decide (t.len 3 ≤ 3)) (by decide +kernel)
  exact ⟨⟨labSlot, labSlot_meets_the_invariant, 3, 3, by decide +kernel, by decide +kernel, by decide⟩,
    ⟨labSlot, t, labSlot_meets_the_invariant, ht, 3, 3, of_decide_eq_true hc⟩⟩

theorem witness_HostResetWipesTheEngine : ∃ (s : State) (rest : List HostAction),
    s.host = .port .reset :: rest ∧ s.initialiserMoves = false ∧ s.fatal = true :=
  ⟨halted [.port .reset], [], rfl, rfl, rfl⟩

/-- Also while `FATAL = 1`; and a sequence one byte longer than the 2 bytes of the smallest `MAXLEN`. -/
theorem witness_HostWriteBufSetsTheSlot :
    (∃ (s : State) (b : Slot) (q : List Byte) (rest : List HostAction),
      s.host = .port (.writeBuf b q) :: rest ∧ s.initialiserMoves = false ∧ q.length ≤ s.maxLen.toNat) ∧
    (∃ (s : State) (b : Slot) (q : List Byte) (rest : List HostAction),
      s.host = .port (.writeBuf b q) :: rest ∧ s.initialiserMoves = false ∧ s.maxLen.toNat < q.length) :=
  ⟨⟨halted [.port (.writeBuf 255 [0xAA])], 255, [0xAA], [], rfl, rfl, by decide +kernel⟩,
    ⟨{ labWith [.port (.writeBuf 0 [1, 2, 3])] with maxLen := 2 }, 0, [1, 2, 3], [], rfl, rfl, by decide⟩⟩

theorem witness_HostReadsChangeNothing : ∃ (s : State) (act : PortAction) (rest : List HostAction) (b : Slot) (r : Reg)
    (k : Nat), s.host = .port act :: rest ∧ s.initialiserMoves = false ∧ (act = .readBuf b ∨ act = .readReg r ∨ act = .readCsr k) :=
  ⟨halted [.port (.readCsr 3)], .readCsr 3, [], 0, 0, 3, rfl, rfl, .inr (.inr rfl)⟩

/-- A ready engine that has stopped, and the engine right after reset. -/
theorem witness_PortActionWaitsAtMostOneStep :
    (∃ (s : State) (act : PortAction) (rest : List HostAction), s.host = .port act :: rest ∧ s.ready = true) ∧
    (∃ (s : State) (act : PortAction) (rest : List HostAction), s.host = .port act :: rest ∧ s.ready = false) :=
  ⟨⟨halted [.port (.readCsr 0)], .readCsr 0, [], rfl, rfl⟩, ⟨cold [.port (.readCsr 0)], .readCsr 0, [], rfl, rfl⟩⟩

theorem witness_WipeEmptiesTheSlotAlsoAfterAFatalStop :
    (∃ (s : State) (b : Slot), s.ready = true ∧ s.fatal = true ∧ s.len b ≠ 0) ∧
    (∃ (s : State) (b : Slot), s.ready = true ∧ s.fatal = false ∧ s.len b ≠ 0) :=
  ⟨⟨halted [], 3, rfl, rfl, by decide +kernel⟩, ⟨labSlot, 3, rfl, rfl, by decide +kernel⟩⟩

theorem witness_ControlRegisterLayout : ∃ k : Nat, 2 < k := ⟨3, by decide⟩

theorem witness_HostChecksAroundTheEngine :
    (∃ secret parts threshold, splitCheck 2048 secret parts threshold = none) ∧
    (∃ extended share, validateIntegrityCheck extended = .ok share) :=
  ⟨⟨hello, 5, 3, by decide⟩, ⟨addIntegrityCheck s1, s1, by simp [validateIntegrityCheck, addIntegrityCheck, le32]⟩⟩

end Sys2Proof.Tests
end

section
/-! SUPPORT. What every command and every step keeps (R20, R25 to R32, R191, R192): the data part of the invariant under each operation, how a command ends, and O48, O14, O16, O49 and O50. -/

namespace Sys2Proof.Machine

/-! ### Keys, reset values, and the checks of a command -/

@[simp] theorem slotOfKey_cellKey (b : Slot) (i : Nat) : slotOfKey (cellKey b i) = b := Fin.ext (cellKey_mod b i)

@[simp] theorem State.e_reset (r : Reg) : State.reset.e r = 0 := by
  simp [State.e, State.reset, Vector.get_eq_getElem]

@[simp] theorem State.len_reset (b : Slot) : State.reset.len b = 0 := by
  simp [State.len, State.reset, Vector.get_eq_getElem]

@[simp] theorem State.byte_reset (b : Slot) (i : Nat) : State.reset.byte b i = 0 := rfl

@[simp] theorem slotAt_zero (a : Slot) : slotAt a 0 = a := Fin.ext (Nat.mod_eq_of_lt a.isLt)

/-- A sequence of two checks passes exactly when both do (R192). -/
theorem orElse_eq_none {α : Type} {x y : Option α} : (x <|> y) = none ↔ x = none ∧ y = none := by
  cases x <;> simp

/-- No slot of the block differs in length from the first (R123, R139). -/
theorem State.firstMismatch_eq_none {s : State} {a : Slot} {k : Nat} :
    s.firstMismatch a k = none ↔ ∀ j, j < k → s.len (slotAt a j) = s.len a := by
  rw [State.firstMismatch, find?_range_eq_none]
  refine forall₂_congr fun j hj => ?_
  rcases j with _ | j <;> simp

/-! ### Lengths of computed buffers -/

/-- Horner over buffers is no longer than the buffer it is seeded from (R121). -/
theorem length_hornerVec_le (t : Tables) (top : List Byte) (lower : List (List Byte)) (x : Byte) :
    (hornerVec t top lower x).length ≤ top.length := by
  induction lower generalizing top with
  | nil => exact Nat.le_refl _
  | cons q lower ih =>
    refine Nat.le_trans (ih _) ?_
    simp only [List.length_zipWith]
    exact Nat.min_le_left ..

theorem State.length_evalBlock_le (s : State) (a : Slot) (k : Nat) (x : Byte) :
    (s.evalBlock a k x).length ≤ s.len (slotAt a (k - 1)) := by
  rw [← s.length_buf]
  exact length_hornerVec_le ..

@[simp] theorem State.length_column (s : State) (a : Slot) (k p : Nat) : (s.column a k p).length = k := by
  simp [State.column]

theorem State.length_of_mem_payload {s : State} {a : Slot} {k : Nat} {q : List Byte} (h : q ∈ s.payload a k) :
    q.length = k := by
  obtain ⟨p, -, rfl⟩ := List.mem_map.mp h
  exact s.length_column a k (p + 1)

/-! ### The data part of the invariant -/

/-- What the invariant says of slots and scratch: the part that a command's effect must keep (R25, R26, R32). -/
structure State.DataInv (s : State) : Prop where
  memWf : s.mem.wf
  zeroTail : ∀ c ∈ s.mem, c.1 / 256 < s.len (slotOfKey c.1)
  lenBound : ∀ b, s.len b ≤ s.maxLen.toNat
  xsClear : s.xs = Scratch.clear
  ysClear : s.ys = Scratch.clear

theorem State.Inv.dataInv {s : State} (h : s.Inv) : s.DataInv :=
  ⟨h.memWf, h.zeroTail, h.lenBound, h.xsClear, h.ysClear⟩

namespace State.DataInv

variable {s t : State}

theorem setE (h : s.DataInv) (d : Reg) (v : Byte) : (s.setE d v).DataInv :=
  ⟨h.memWf, h.zeroTail, h.lenBound, h.xsClear, h.ysClear⟩

theorem complete_iff {code : Byte} {v : Word32} : (s.complete code v).DataInv ↔ s.DataInv :=
  ⟨fun h => ⟨h.memWf, h.zeroTail, h.lenBound, h.xsClear, h.ysClear⟩,
    fun h => ⟨h.memWf, h.zeroTail, h.lenBound, h.xsClear, h.ysClear⟩⟩

/-- A byte below the length: no cell comes to stand behind it. -/
theorem setByte (h : s.DataInv) {d : Slot} {i : Nat} (v : Byte) (hi : i < s.len d) : (s.setByte d i v).DataInv where
  memWf := Memory.wf_write _ _ h.memWf
  zeroTail c hc := by
    rcases Memory.mem_write_of hc with rfl | ⟨hc, -⟩
    · simpa [cellKey_div] using hi
    · exact h.zeroTail c hc
  lenBound := h.lenBound
  xsClear := h.xsClear
  ysClear := h.ysClear

theorem zeroBytes (h : s.DataInv) (d : Slot) (lo hi : Nat) : (s.zeroBytes d lo hi).DataInv where
  memWf := Memory.wf_zeroRange d lo hi h.memWf
  zeroTail c hc := h.zeroTail c (Memory.mem_zeroRange_of hc).1
  lenBound := h.lenBound
  xsClear := h.xsClear
  ysClear := h.ysClear

/-- A new length: whatever it cuts off was wiped first (R158). -/
theorem zeroBytes_setLen (h : s.DataInv) (d : Slot) {n : Nat} (hn : n ≤ s.maxLen.toNat) :
    ((s.zeroBytes d n (s.len d)).setLen d n).DataInv where
  memWf := Memory.wf_zeroRange _ _ _ h.memWf
  zeroTail c hc := by
    obtain ⟨hc, hout⟩ := Memory.mem_zeroRange_of hc
    have hlt := h.zeroTail c hc
    rw [State.len_setLen]
    split
    · rename_i hd
      subst hd
      by_contra hge
      exact hout ⟨rfl, Nat.le_of_not_lt hge, hlt⟩
    · exact hlt
  lenBound b := by
    rw [State.len_setLen]
    split
    · exact hn
    · exact h.lenBound b
  xsClear := h.xsClear
  ysClear := h.ysClear

/-- A new content of at most `MAXLEN` bytes: what the slot held behind it lay below `MAXLEN` and is wiped (R7). -/
theorem setBuf (h : s.DataInv) (d : Slot) {q : List Byte} (hq : q.length ≤ s.maxLen.toNat) : (s.setBuf d q).DataInv where
  memWf := Memory.wf_writeFrom _ _ _ (Memory.wf_zeroRange _ _ _ h.memWf)
  zeroTail c hc := by
    rw [State.len_setBuf]
    rcases Memory.mem_writeFrom_of hc with ⟨i, -, hi, hkey⟩ | hc
    · simpa [hkey, cellKey_div] using hi
    · obtain ⟨hc, hout⟩ := Memory.mem_zeroRange_of hc
      have hlt := h.zeroTail c hc
      split
      · rename_i hd
        subst hd
        by_contra hge
        exact hout ⟨rfl, Nat.le_of_not_lt hge, Nat.lt_of_lt_of_le hlt (h.lenBound _)⟩
      · exact hlt
  lenBound b := by
    rw [State.len_setBuf]
    split
    · exact hq
    · exact h.lenBound b
  xsClear := h.xsClear
  ysClear := h.ysClear

/-- The interpolator changes nothing but the scratch, and wipes what it loaded (R140). -/
theorem interpolate (h : s.DataInv) {q : List Byte} {rows : List (List Byte)} (hq : q.length ≤ 256)
    (hrows : ∀ p ∈ rows, p.length = q.length) : (s.interpolate q rows).2.DataInv := by
  obtain ⟨hx, hy⟩ := s.interpolate_clear hq hrows h.xsClear h.ysClear
  exact ⟨h.memWf, h.zeroTail, h.lenBound, hx, hy⟩

/-! ### The ends of a command -/

theorem finish (h : s.DataInv) (he : s.finish = .next t) : t.DataInv := by
  cases he
  exact complete_iff.mpr h

theorem raise (h : s.DataInv) {err : Err} {v : Word32} (he : s.raise err v = .next t) : t.DataInv := by
  cases he
  exact complete_iff.mpr h

/-- A checked command keeps the data part if its effect does where all checks pass. -/
theorem checked (h : s.DataInv) {check : Option (Err × Word32)} {effect : State → State}
    (he : s.checked check effect = .next t) (heff : check = none → (effect s).DataInv) : t.DataInv := by
  rcases check with _ | ⟨err, v⟩
  · exact (heff rfl).finish he
  · exact h.raise he

end State.DataInv

/-! ### What the checks of the block commands and the interpolator give -/

/-- PEVALV computes no more than `MAXLEN` bytes (R121). -/
theorem State.length_evalBlock_le_maxLen {s : State} (h : s.DataInv) (a : Slot) (k : Nat) (x : Byte) :
    (s.evalBlock a k x).length ≤ s.maxLen.toNat :=
  Nat.le_trans (s.length_evalBlock_le a k x) (h.lenBound _)

/-- Where PSHARE's checks pass, the share fits: its payload is as long as slot `a`, and check 1 left room for one byte
more (R124). -/
theorem State.length_share_le_maxLen {s : State} {d a : Slot} {x : Reg} {k : Nat} (h : s.pshareCheck d a x k = none) :
    (s.evalBlock a k (s.e x)).length + 1 ≤ s.maxLen.toNat := by
  simp only [State.pshareCheck, State.sourcesCheck, orElse_eq_none, raiseIf_eq_none, raiseAt_eq_none,
    State.firstMismatch_eq_none, Bool.or_eq_false_iff, decide_eq_false_iff_not] at h
  obtain ⟨⟨⟨hk, -⟩, hroom⟩, ⟨-, hlen⟩, -⟩ := h
  have hle := s.length_evalBlock_le a k (s.e x)
  rw [hlen (k - 1) (by omega)] at hle
  omega

/-- Where LAGR0's checks pass, the interpolator loads two rows of equal length that fit its scratch (R138). -/
theorem State.lagr0Check_fits {s : State} {a b : Slot} (h : s.lagr0Check a b = none) :
    (s.buf a).length ≤ 256 ∧ ∀ p ∈ [s.buf b], p.length = (s.buf a).length := by
  simp only [State.lagr0Check, orElse_eq_none, raiseIf_eq_none, raiseAt_eq_none, firstRepeat_eq_none] at h
  obtain ⟨-, hlen, hnodup⟩ := h
  exact ⟨nodup_length_le hnodup, by simpa using hlen⟩

/-- Where COMBINE's checks pass, there are at most 256 shares (R139). -/
theorem State.combineCheck_fits {s : State} {d a : Slot} {k : Nat} (h : s.combineCheck d a k = none) : k ≤ 256 := by
  simp only [State.combineCheck, orElse_eq_none, raiseIf_eq_none, pastLastSlot, decide_eq_false_iff_not] at h
  obtain ⟨hlast, -⟩ := h
  omega

/-- Every command keeps the data part of the invariant (R25, R26, R32). -/
theorem exec_keeps_dataInv {i : Instr} {s t : State} (hs : s.DataInv) (h : exec i s = .next t) : t.DataInv := by
  cases i with
  | gfadd d a b => exact (hs.setE ..).finish h
  | gfmul d a b => exact (hs.setE ..).finish h
  | gfdiv d a b =>
    simp only [exec, execGfdiv] at h
    split at h
    · exact hs.raise h
    · exact (hs.setE ..).finish h
  | gfinv d a =>
    simp only [exec, execGfinv] at h
    split at h
    · exact hs.raise h
    · exact (hs.setE ..).finish h
  | gfexp d a => exact (hs.setE ..).finish h
  | gflog d a => exact (hs.setE ..).finish h
  | vadd d a b =>
    simp only [exec, execVadd] at h
    refine hs.checked h fun _ => hs.setBuf d ?_
    simpa using .inl (hs.lenBound a)
  | vmul d a x =>
    refine (hs.setBuf d ?_).finish h
    simpa using hs.lenBound a
  | vzero d => exact (hs.zeroBytes ..).finish h
  | peval d a x => exact (hs.setE ..).finish h
  | pevalv d a x k =>
    simp only [exec, execPevalv] at h
    exact hs.checked h fun _ => hs.setBuf d (State.length_evalBlock_le_maxLen hs ..)
  | pshare d a x k =>
    simp only [exec, execPshare] at h
    exact hs.checked h fun hc => hs.setBuf d (State.length_share_le_maxLen hc)
  | lagr0 d a b =>
    simp only [exec, execLagr0] at h
    refine hs.checked h fun hc => State.DataInv.setE ?_ ..
    obtain ⟨hq, hrows⟩ := State.lagr0Check_fits hc
    exact hs.interpolate hq hrows
  | combine d a k =>
    simp only [exec, execCombine] at h
    refine hs.checked h fun hc => ?_
    have hq : (s.column a k 0).length ≤ 256 := by simpa using State.combineCheck_fits hc
    have hrows : ∀ p ∈ s.payload a k, p.length = (s.column a k 0).length := fun p hp => by
      simpa using State.length_of_mem_payload hp
    refine (hs.interpolate hq hrows).setBuf d ?_
    rw [s.interpolate_fst hq hrows, List.length_map, State.payload, List.length_map, List.length_range]
    exact Nat.le_trans (Nat.sub_le ..) (hs.lenBound a)
  | ldi d v => exact (hs.setE ..).finish h
  | ldb d a off =>
    simp only [exec, execLdb] at h
    exact hs.checked h fun _ => hs.setE ..
  | stb r a off =>
    simp only [exec, execStb] at h
    exact hs.checked h fun hc => hs.setByte _ (by simpa [raiseIf_eq_none] using hc)
  | setlen a n =>
    simp only [exec, execSetlen] at h
    exact hs.checked h fun hc => hs.zeroBytes_setLen a (by simpa [raiseIf_eq_none] using hc)

/-! ### How a command ends -/

theorem Quiet.refl (s : State) : Quiet s s := ⟨⟨rfl, rfl, rfl, rfl, rfl⟩, ⟨rfl, rfl, rfl, rfl, rfl⟩⟩

theorem Err.code_mem_knownCodes (err : Err) : err.code ∈ knownCodes := by cases err <;> decide

/-- Every command ends by `complete`, with a known code and a zero cause under the code 0, after an effect that leaves
the status, `pc` and the rest alone (R191, R192). -/
theorem exec_completes {i : Instr} {s t : State} (h : exec i s = .next t) :
    ∃ u code v, t = u.complete code v ∧ Quiet s u ∧ code ∈ knownCodes ∧ (code = 0 → v = 0) := by
  rcases exec_ends i s with ⟨err, v, he⟩ | ⟨u, he, hq⟩
  · exact ⟨s, err.code, v, Host.Outcome.next.inj (h.symm.trans he), .refl s, err.code_mem_knownCodes,
      fun h0 => absurd h0 err.code_ne_zero⟩
  · exact ⟨u, 0, 0, Host.Outcome.next.inj (h.symm.trans he), hq, by decide, fun _ => rfl⟩

/-- Settles O14: every effect is quiet, and `complete` writes the status alone. -/
theorem commandsKeepTablesAndConstants : Obligations.CommandsKeepTablesAndConstants := by
  intro i s t h
  obtain ⟨u, code, v, rfl, ⟨-, hrest⟩, -⟩ := exec_completes h
  exact ⟨hrest.tables, hrest.maxLen, hrest.ready, hrest.host, hrest.freeCount⟩

/-- Settles O16: `complete` decides by the code it writes, and the effect before it leaves `pc` alone. -/
theorem pcCountsCompletedCommands : Obligations.PcCountsCompletedCommands := by
  intro i s t h
  obtain ⟨u, code, v, rfl, ⟨hstatus, -⟩, -⟩ := exec_completes h
  constructor <;> intro hc <;> simp only [State.complete_errcode] at hc <;> simp [hc, hstatus.pc]

/-! ### The invariant -/

namespace State.Inv

variable {s u : State}

theorem withHost (h : s.Inv) (moves : List HostAction) : (s.withHost moves).Inv := { h with }

theorem afterChoice (h : s.Inv) : s.afterChoice.Inv := by
  unfold State.afterChoice
  split
  · exact { h with }
  · exact h

/-- The initialiser's step: the tables are built as `READY` rises (R222). -/
theorem initialise (h : s.Inv) : s.initialise.Inv :=
  { h with tablesBuilt := fun _ => rfl, beforeReady := nofun }

/-- A quiet effect that keeps the data part keeps the invariant. -/
theorem of_quiet (h : s.Inv) (hq : Quiet s u) (hd : u.DataInv) : u.Inv where
  memWf := hd.memWf
  zeroTail := hd.zeroTail
  lenBound := hd.lenBound
  maxLenBound := hq.rest.maxLen ▸ h.maxLenBound
  xsClear := hd.xsClear
  ysClear := hd.ysClear
  tablesBuilt := by simpa only [hq.rest.ready, hq.rest.tables] using h.tablesBuilt
  codeKnown := hq.status.errcode ▸ h.codeKnown
  fatalCode := by simpa only [hq.status.fatal, hq.status.errcode] using h.fatalCode
  stickyCode := by simpa only [hq.status.errcode, hq.status.esticky] using h.stickyCode
  zeroInfo := by simpa only [hq.status.errcode, hq.status.errinfo] using h.zeroInfo
  beforeReady := by
    simpa only [hq.rest.ready, hq.status.esticky, hq.status.errcode, hq.status.pc] using h.beforeReady

/-- The end of a command at a ready engine that has not stopped: the flags follow the code written (R28, R191, R192). -/
theorem complete (h : s.Inv) (hready : s.ready = true) (hfatal : s.fatal = false) {code : Byte} {v : Word32}
    (hcode : code ∈ knownCodes) (hv : code = 0 → v = 0) : (s.complete code v).Inv :=
  { h with
    codeKnown := hcode
    fatalCode := by simp [hfatal]
    stickyCode := fun hne => by simpa using .inr hne
    zeroInfo := hv
    beforeReady := fun hr => absurd (hready.symm.trans hr) nofun }

end State.Inv

/-- Every command keeps the invariant, at a ready engine that has not stopped. -/
theorem exec_keeps_inv {i : Instr} {s t : State} (hs : s.Inv) (hready : s.ready = true) (hfatal : s.fatal = false)
    (h : exec i s = .next t) : t.Inv := by
  have hd := exec_keeps_dataInv hs.dataInv h
  obtain ⟨u, code, v, rfl, hq, hcode, hv⟩ := exec_completes h
  have hu := hs.of_quiet hq (State.DataInv.complete_iff.mp hd)
  exact hu.complete (hq.rest.ready.trans hready) (hq.status.fatal.trans hfatal) hcode hv

theorem two_le_maxLen : 2 ≤ Config.maxLen.toNat := by
  unfold Config.maxLen
  split
  · decide
  · omega

/-- The reset values of R35 meet the invariant, whatever the tables, the host's moves and the legal `MAXLEN`. -/
theorem reset_inv (tables : Tables) {maxLen : Word32} (host : List HostAction) (freeCount : Nat)
    (h : 2 ≤ maxLen.toNat) :
    State.Inv { State.reset with tables := tables, maxLen := maxLen, host := host, freeCount := freeCount } where
  memWf := Memory.wf_nil
  zeroTail := nofun
  lenBound b := by simp [State.len, State.reset, Vector.get_eq_getElem]
  maxLenBound := h
  xsClear := rfl
  ysClear := rfl
  tablesBuilt := nofun
  codeKnown := List.mem_cons_self
  fatalCode := rfl
  stickyCode h0 := absurd rfl h0
  zeroInfo _ := rfl
  beforeReady _ := ⟨rfl, rfl, rfl⟩

/-- Settles O49: reset is the fresh state with the legal `MAXLEN` of the configuration. -/
theorem resetMeetsTheInvariant : Obligations.ResetMeetsTheInvariant := reset_inv _ _ _ two_le_maxLen

theorem State.Inv.hostReset {s : State} (h : s.Inv) : s.hostReset.Inv := reset_inv _ _ _ h.maxLenBound

/-- Every port action keeps the invariant (R57). -/
theorem portAction_keeps_inv {s t : State} {act : PortAction} (hs : s.Inv) (h : s.portAction act = .next t) : t.Inv := by
  rcases State.portAction_cases h with ⟨b, q, -, hq, rfl⟩ | ⟨-, rfl⟩ | ⟨-, rfl⟩
  · exact hs.of_quiet (quiet_setBuf ..) (hs.dataInv.setBuf b hq)
  · exact hs
  · exact hs.hostReset

/-- Settles O48, by cases on the move the step makes. -/
theorem everyStepKeepsTheInvariant : Obligations.EveryStepKeepsTheInvariant := by
  intro s t hs h
  rcases step_cases h with ⟨-, rfl⟩ | ⟨-, -, -, rfl⟩ | ⟨w, rest, -, -, -, rfl⟩ |
    ⟨w, rest, why, -, hready, hfatal, -, rfl⟩ | ⟨w, rest, i, -, hready, hfatal, -, he⟩ | ⟨act, rest, -, he⟩
  · exact hs.afterChoice.initialise
  · exact hs
  · exact hs.withHost rest
  · exact (hs.withHost rest).complete hready hfatal (Err.code_mem_knownCodes _)
      fun h0 => absurd h0 (Err.code_ne_zero _)
  · exact exec_keeps_inv (hs.withHost rest) hready hfatal he
  · exact portAction_keeps_inv (hs.afterChoice.withHost rest) he

/-- Zero tail byte by byte: a byte behind its slot's length has no cell (R26). -/
theorem State.Inv.byte_eq_zero {s : State} (h : s.Inv) {b : Slot} {i : Nat} (hi : s.len b ≤ i) : s.byte b i = 0 := by
  refine Memory.read_of_absent fun c hc hkey => ?_
  have hlt := h.zeroTail c hc
  rw [hkey, cellKey_div, slotOfKey_cellKey] at hlt
  omega

/-- Settles O50: the invariant's zero tail, read byte by byte. -/
theorem zeroTailAtEveryPoint : Obligations.ZeroTailAtEveryPoint :=
  ⟨fun b i _ => State.byte_reset b i, fun _ hs _ _ hi => hs.byte_eq_zero hi,
    fun s t hs h _ _ hi => (everyStepKeepsTheInvariant s t hs h).byte_eq_zero hi⟩

end Sys2Proof.Machine
end

section
/-! SUPPORT. The flags, `pc` and the words still to issue through one step, and the fields no command reads (R28, R31, R36): O12, O17 and O19. -/

namespace Sys2Proof.Machine

/-! ### Flags, `pc` and the words still to issue -/

/-- `complete` lowers no flag, and advances `pc` if the engine goes on (R28, R36, R192). -/
theorem State.complete_flags (s : State) (code : Byte) (v : Word32) :
    (s.fatal = true → (s.complete code v).fatal = true) ∧ (s.esticky = true → (s.complete code v).esticky = true) ∧
      ((s.complete code v).fatal = false → (s.complete code v).pc = s.pc + 1) := by
  refine ⟨fun h => by simp [h], fun h => by simp [h], fun h => ?_⟩
  rw [State.complete_fatal, Bool.or_eq_false_iff] at h
  simp [h.2]

/-- No command lowers a flag, and one after which the engine goes on advances `pc` (R28, R36). -/
theorem exec_flags {i : Instr} {s t : State} (h : exec i s = .next t) :
    (s.fatal = true → t.fatal = true) ∧ (s.esticky = true → t.esticky = true) ∧
      (t.fatal = false → t.pc = s.pc + 1) := by
  obtain ⟨u, code, v, rfl, ⟨hstatus, -⟩, -⟩ := exec_completes h
  simpa only [hstatus.fatal, hstatus.esticky, hstatus.pc] using u.complete_flags code v

/-- A port action that is no reset leaves the status, `pc` and the rest alone (R57). -/
theorem State.portAction_quiet {s t : State} {act : PortAction} (hact : act ≠ .reset) (h : s.portAction act = .next t) :
    Quiet s t := by
  rcases State.portAction_cases h with ⟨b, q, -, -, rfl⟩ | ⟨-, rfl⟩ | ⟨hr, -⟩
  · exact quiet_setBuf ..
  · exact .refl _
  · exact absurd hr hact

/-- Settles O12, by cases on the move the step makes. -/
theorem flagsOnlyRiseBetweenResets : Obligations.FlagsOnlyRiseBetweenResets := by
  intro s t hreset h
  rcases step_cases h with ⟨-, rfl⟩ | ⟨-, -, -, rfl⟩ | ⟨w, rest, -, -, -, rfl⟩ |
    ⟨w, rest, why, -, -, -, -, rfl⟩ | ⟨w, rest, i, -, -, -, -, he⟩ | ⟨act, rest, hhost, he⟩
  · simp
  · simp
  · simp
  · obtain ⟨hf, he, -⟩ := (s.withHost rest).complete_flags Err.illegal.code (w.extractLsb' 32 32)
    exact ⟨id, hf, he⟩
  · obtain ⟨hf, hst, -⟩ := exec_flags he
    have hready := (commandsKeepTablesAndConstants i _ t he).ready
    exact ⟨hready.trans, hf, hst⟩
  · have hact : act ≠ .reset := fun ha => hreset rest (ha ▸ hhost)
    obtain ⟨hstatus, hrest⟩ := State.portAction_quiet hact he
    simp [hrest.ready, hstatus.fatal, hstatus.esticky]

theorem State.pendingWords_of_issue {s t : State} {w : CmdWord} {rest : List HostAction} (hs : s.host = .issue w :: rest)
    (ht : t.host = rest) : s.pendingWords = w :: t.pendingWords := by
  simp [State.pendingWords, hs, ht]

theorem State.pendingWords_of_port {s t : State} {act : PortAction} {rest : List HostAction}
    (hs : s.host = .port act :: rest) (ht : t.host = rest) : s.pendingWords = t.pendingWords := by
  simp [State.pendingWords, hs, ht]

/-- A word leaves the host's list and `pc` advances: the sum stays (R36). -/
theorem wordsAddUp_of_issue {s t : State} {w : CmdWord} {rest : List HostAction} (hs : s.host = .issue w :: rest)
    (ht : t.host = rest) (hpc : t.pc = s.pc + 1) :
    t.pc + t.pendingWords.length = s.pc + s.pendingWords.length := by
  rw [State.pendingWords_of_issue hs ht, hpc, List.length_cons]
  omega

/-- Settles O17, by cases on the move the step makes: a word leaves the host's list exactly when `pc` advances. -/
theorem pcAndPendingWordsAddUp : Obligations.PcAndPendingWordsAddUp := by
  intro s t hreset h hfatal hgoesOn
  rcases step_cases h with ⟨-, rfl⟩ | ⟨-, -, -, rfl⟩ | ⟨w, rest, -, -, hstopped, -⟩ |
    ⟨w, rest, why, hhost, -, -, -, rfl⟩ | ⟨w, rest, i, hhost, -, -, -, he⟩ | ⟨act, rest, hhost, he⟩
  · simp [State.pendingWords]
  · rfl
  · exact absurd (hfatal.symm.trans hstopped) nofun
  · obtain ⟨-, -, hpc⟩ := (s.withHost rest).complete_flags Err.illegal.code (w.extractLsb' 32 32)
    exact wordsAddUp_of_issue hhost rfl (hpc hgoesOn)
  · obtain ⟨-, -, hpc⟩ := exec_flags he
    exact wordsAddUp_of_issue hhost (commandsKeepTablesAndConstants i _ t he).host (hpc hgoesOn)
  · have hact : act ≠ .reset := fun ha => hreset rest (ha ▸ hhost)
    obtain ⟨hstatus, hrest⟩ := State.portAction_quiet hact he
    rw [State.pendingWords_of_port hhost hrest.host, hstatus.pc, State.withHost_pc, State.afterChoice_pc]

/-! ### The status fields a command does not read -/

/-- A state with other values in `ERRCODE`, `ERRINFO`, `ESTICKY` and `pc` (R31, R36). -/
def State.withStatus (s : State) (code : Byte) (v : Word32) (sticky : Bool) (n : Nat) : State :=
  { s with errcode := code, errinfo := v, esticky := sticky, pc := n }

section
variable (s : State) (code : Byte) (v : Word32) (sticky : Bool) (n : Nat)

/-- Two outcomes that both complete, with one code and cause, from states that differ only in these fields. -/
def SameCompletion (o o' : Result) : Prop :=
  ∃ u c w, o = .next (u.complete c w) ∧ o' = .next ((State.withStatus u code v sticky n).complete c w)

/-- The same check and an effect that commutes with a change of these fields. -/
theorem State.checked_withStatus (check : Option (Err × Word32)) {effect effect' : State → State}
    (h : effect' (s.withStatus code v sticky n) = (effect s).withStatus code v sticky n) :
    SameCompletion code v sticky n (s.checked check effect) ((s.withStatus code v sticky n).checked check effect') := by
  rcases check with _ | ⟨err, w⟩
  · exact ⟨effect s, 0, 0, rfl, by rw [← h]; rfl⟩
  · exact ⟨s, err.code, w, rfl, rfl⟩

theorem exec_withStatus (i : Instr) :
    SameCompletion code v sticky n (exec i s) (exec i (s.withStatus code v sticky n)) := by
  cases i with
  | gfadd d a b => exact ⟨_, 0, 0, rfl, rfl⟩
  | gfmul d a b => exact ⟨_, 0, 0, rfl, rfl⟩
  | gfdiv d a b =>
    by_cases h : s.e b = 0
    · exact ⟨s, Err.divZero.code, 0, dif_pos h, dif_pos h⟩
    · exact ⟨s.setE d (gfDiv s.tables (s.e a) (s.e b) h), 0, 0, dif_neg h, dif_neg h⟩
  | gfinv d a =>
    by_cases h : s.e a = 0
    · exact ⟨s, Err.invZero.code, 0, dif_pos h, dif_pos h⟩
    · exact ⟨s.setE d (gfInv s.tables (s.e a) h), 0, 0, dif_neg h, dif_neg h⟩
  | gfexp d a => exact ⟨_, 0, 0, rfl, rfl⟩
  | gflog d a => exact ⟨_, 0, 0, rfl, rfl⟩
  | vadd d a b => simp only [exec, execVadd]; exact s.checked_withStatus _ _ _ _ _ rfl
  | vmul d a x => exact ⟨_, 0, 0, rfl, rfl⟩
  | vzero d => exact ⟨_, 0, 0, rfl, rfl⟩
  | peval d a x => exact ⟨_, 0, 0, rfl, rfl⟩
  | pevalv d a x k => simp only [exec, execPevalv]; exact s.checked_withStatus _ _ _ _ _ rfl
  | pshare d a x k => simp only [exec, execPshare]; exact s.checked_withStatus _ _ _ _ _ rfl
  | lagr0 d a b => simp only [exec, execLagr0]; exact s.checked_withStatus _ _ _ _ _ rfl
  | combine d a k => simp only [exec, execCombine]; exact s.checked_withStatus _ _ _ _ _ rfl
  | ldi d w => exact ⟨_, 0, 0, rfl, rfl⟩
  | ldb d a off => simp only [exec, execLdb]; exact s.checked_withStatus _ _ _ _ _ rfl
  | stb r a off => simp only [exec, execStb]; exact s.checked_withStatus _ _ _ _ _ rfl
  | setlen a len => simp only [exec, execSetlen]; exact s.checked_withStatus _ _ _ _ _ rfl

end

/-- Settles O19: the command completes from both states alike, and `complete` does not read these fields. -/
theorem statusFieldsAffectNoCommand : Obligations.StatusFieldsAffectNoCommand := by
  intro i s t code v sticky n h
  obtain ⟨u, c, w, hu, hu'⟩ := exec_withStatus s code v sticky n i
  cases h.symm.trans hu
  exact ⟨_, hu', ⟨fun _ => rfl, fun _ => rfl, fun _ _ => rfl, rfl, rfl⟩, rfl, rfl, rfl⟩

end Sys2Proof.Machine
end

section
/-! SUPPORT. The build procedure and the tables (R20 to R23), the reset values and the control registers (R27 to R30, R35): O20, O21, O51 and O56. -/

namespace Sys2Proof.Machine

/-! ### The build procedure and the tables (R20 to R23) -/

/-- If every pass of the build loop writes to `EXP` what `E` says, an entry that held that, or that a pass writes, holds
it after the loop. -/
theorem Tables.fill_exp (E : Nat → Byte) (fuel i v : Nat) (t : Tables) {j : Nat} (hj : j < 256)
    (hE : ∀ n, n < fuel → E (i + n) = BitVec.ofNat 8 (doubled^[n] v))
    (h : t.exp[j] = E j ∨ (i ≤ j ∧ j < i + fuel)) : (Tables.fill fuel i v t).exp[j] = E j := by
  induction fuel generalizing i v t with
  | zero => exact h.resolve_right (by omega)
  | succ fuel ih =>
    refine ih _ _ _ (fun n hn => ?_) ?_
    · rw [Nat.add_assoc, Nat.add_comm 1 n]
      exact hE (n + 1) (by omega)
    · simp only [Vector.getElem_setIfInBounds]
      by_cases hij : i = j
      · subst hij
        exact .inl (by simpa using (hE 0 (by omega)).symm)
      · simp only [hij, if_false]
        exact h.imp_right fun ⟨h1, h2⟩ => ⟨by omega, by omega⟩

/-- The same for `LOG`, where a pass writes the entry of the value it has reached. -/
theorem Tables.fill_log (L : Nat → Byte) (fuel i v : Nat) (t : Tables) {j : Nat} (hj : j < 256)
    (hL : ∀ n, n < fuel → L (doubled^[n] v % 256) = BitVec.ofNat 8 (i + n))
    (h : t.log[j] = L j ∨ ∃ n, n < fuel ∧ doubled^[n] v % 256 = j) : (Tables.fill fuel i v t).log[j] = L j := by
  induction fuel generalizing i v t with
  | zero => exact h.resolve_right fun ⟨n, hn, _⟩ => absurd hn (Nat.not_lt_zero n)
  | succ fuel ih =>
    refine ih _ _ _ (fun n hn => ?_) ?_
    · rw [Nat.add_assoc, Nat.add_comm 1 n]
      exact hL (n + 1) (by omega)
    · simp only [Vector.getElem_setIfInBounds]
      by_cases hvj : v % 256 = j
      · subst hvj
        exact .inl (by simpa using (hL 0 (by omega)).symm)
      · simp only [hvj, if_false]
        refine h.imp_right ?_
        rintro ⟨_ | n, hn, hval⟩
        · exact absurd hval hvj
        · exact ⟨n, by omega, hval⟩

/-- What pass `n` of the build loop writes to the two tables: the entries of R23. -/
theorem pass_writes_packed : ∀ n : Fin 255, packedAt expPacked n = BitVec.ofNat 8 (doubled^[n] 0x01) ∧
    packedAt logPacked (doubled^[n] 0x01 % 256) = BitVec.ofNat 8 n := by
  decide +kernel

/-- The build loop reaches every nonzero byte within its 255 passes, at the pass the byte's logarithm names (R22). -/
theorem pass_reaches : ∀ j : Fin 256, j ≠ 0 →
    (packedAt logPacked j).toNat < 255 ∧ doubled^[(packedAt logPacked j).toNat] 0x01 % 256 = j := by
  decide +kernel

theorem Tables.build_exp (t : Tables) {j : Nat} (hj : j < 256) : (Tables.build t).exp[j] = packedAt expPacked j := by
  simp only [Tables.build, Vector.getElem_setIfInBounds]
  by_cases hlast : 255 = j
  · subst hlast
    rw [if_pos rfl]
    decide
  · simp only [hlast, if_false]
    refine Tables.fill_exp _ _ _ _ _ hj (fun n hn => ?_) (.inr ⟨by omega, by omega⟩)
    rw [Nat.zero_add]
    exact (pass_writes_packed ⟨n, hn⟩).1

theorem Tables.build_log (t : Tables) {j : Nat} (hj : j < 256) : (Tables.build t).log[j] = packedAt logPacked j := by
  simp only [Tables.build, Vector.getElem_setIfInBounds]
  by_cases hzero : 0 = j
  · subst hzero
    rw [if_pos rfl]
    decide
  · simp only [hzero, if_false]
    obtain ⟨hlt, hval⟩ := pass_reaches ⟨j, hj⟩ (Fin.ne_of_val_ne (Ne.symm hzero))
    refine Tables.fill_log _ _ _ _ _ hj (fun n hn => ?_) (.inr ⟨_, hlt, hval⟩)
    rw [Nat.zero_add]
    exact (pass_writes_packed ⟨n, hn⟩).2

theorem Tables.ext_getElem {t t' : Tables} (hexp : ∀ j (hj : j < 256), t.exp[j] = t'.exp[j])
    (hlog : ∀ j (hj : j < 256), t.log[j] = t'.log[j]) : t = t' := by
  obtain ⟨exp, log⟩ := t
  obtain ⟨exp', log'⟩ := t'
  exact congrArg₂ Tables.mk (Vector.ext hexp) (Vector.ext hlog)

/-- Settles O20, entry by entry: every entry is written by a pass or by the last two lines of R21. -/
theorem buildProcedureGivesTheTables : Obligations.BuildProcedureGivesTheTables := fun t =>
  Tables.ext_getElem (fun j hj => (t.build_exp hj).trans (built_exp_packed ⟨j, hj⟩).symm)
    (fun j hj => (t.build_log hj).trans (built_log_packed ⟨j, hj⟩).symm)

theorem expAt_logAt_built : ∀ b : Byte, b ≠ 0 → Tables.built.expAt (Tables.built.logAt b) = b := by
  simp only [expAt_built, logAt_built]
  decide +kernel

theorem logAt_expAt_built : ∀ i : Byte, i.toNat ≤ 254 → Tables.built.logAt (Tables.built.expAt i) = i := by
  simp only [expAt_built, logAt_built]
  decide +kernel

/-- Settles O21: the two inversions over all bytes, then the single entries. -/
theorem tableInvariants : Obligations.TableInvariants := by
  refine ⟨expAt_logAt_built, logAt_expAt_built, ?_⟩
  simp only [expAt_built, logAt_built]
  decide

/-! ### Reset and the control registers (R27 to R30, R35) -/

@[simp] theorem Scratch.get_clear (j : Fin 256) : Scratch.clear.get j = 0 := by
  simp [Scratch.clear, Vector.get_eq_getElem]

theorem step_reset : step State.reset = .next State.reset.initialise := rfl

/-- Settles O51: no move of the host waits after reset, so the first step is the initialiser's. -/
theorem resetState : Obligations.ResetState := by
  refine ⟨State.e_reset, State.len_reset, State.byte_reset, rfl, rfl, rfl, rfl, rfl, rfl, rfl, rfl,
    fun j => ⟨Scratch.get_clear j, Scratch.get_clear j⟩, _, step_reset, rfl, rfl, rfl, ?_, ?_, rfl⟩
  · exact ⟨State.e_initialise _, State.len_initialise _, State.byte_initialise _, rfl, rfl⟩
  · exact ⟨rfl, rfl, rfl, rfl, rfl⟩

theorem State.csr_zero (s : State) : s.csr 0 = s.statusWord := rfl

theorem getElem_bitAt (b : Bool) (i : Nat) {j : Nat} (hj : j < 32) : (bitAt b i)[j] = (b && decide (i = j)) := by
  cases b
  · simp [bitAt]
  · change (BitVec.ofNat 32 (1 <<< i))[j] = _
    rw [← BitVec.getLsbD_eq_getElem, BitVec.getLsbD_ofNat, Nat.one_shiftLeft, Nat.testBit_two_pow]
    simp [hj]

/-- Each bit of `STATUS` (R28). -/
theorem State.getElem_statusWord (s : State) {j : Nat} (hj : j < 32) :
    s.statusWord[j] = (s.ready && decide (0 = j) || s.fatal && decide (1 = j) || s.esticky && decide (2 = j) ||
      !decide (j < 8) && s.errcode.getLsbD (j - 8)) := by
  simp [State.statusWord, getElem_bitAt]

/-- Above the three flags `STATUS` holds `ERRCODE` at bits 15:8 and nothing else (R28). -/
theorem State.getLsbD_statusWord {s : State} {j : Nat} (hlo : 3 ≤ j) (hj : j < 32) :
    s.statusWord.getLsbD j = (!decide (j < 8) && s.errcode.getLsbD (j - 8)) := by
  rw [BitVec.getLsbD_eq_getElem hj, s.getElem_statusWord hj]
  have h0 : 0 ≠ j := by omega
  have h1 : 1 ≠ j := by omega
  have h2 : 2 ≠ j := by omega
  simp [h0, h1, h2]

/-- Settles O56, bit by bit. -/
theorem controlRegisterLayout : Obligations.ControlRegisterLayout := by
  intro s
  rw [State.csr_zero]
  refine ⟨?_, ?_, ?_, ?_, ?_, ?_, rfl, rfl, ?_⟩
  · simpa using s.getElem_statusWord (j := 0) (by decide)
  · simpa using s.getElem_statusWord (j := 1) (by decide)
  · simpa using s.getElem_statusWord (j := 2) (by decide)
  · ext i hi
    have hlow : 3 + i < 8 := by omega
    rw [BitVec.getElem_extractLsb', State.getLsbD_statusWord (by omega) (by omega)]
    simp [hlow]
  · ext i hi
    rw [BitVec.getElem_extractLsb', State.getLsbD_statusWord (by omega) (by omega)]
    simp [hi]
  · ext i hi
    have hhigh : s.errcode.getLsbD (16 + i - 8) = false := BitVec.getLsbD_of_ge _ _ (by omega)
    rw [BitVec.getElem_extractLsb', State.getLsbD_statusWord (by omega) (by omega), hhigh]
    simp
  · rintro (_ | _ | _ | k) hk
    · omega
    · omega
    · omega
    · rfl

end Sys2Proof.Machine
end

section
/-! SUPPORT. The host port (R54, R57, R222): who moves while a port action waits, what the host's move leaves alone, and O53, O54 and O55. -/

namespace Sys2Proof.Machine

/-! ### What a choice and the initialiser's step leave alone -/

@[simp] theorem State.e_afterChoice (s : State) (r : Reg) : s.afterChoice.e r = s.e r := by
  simp only [State.e, State.afterChoice_regs]

@[simp] theorem State.len_afterChoice (s : State) (b : Slot) : s.afterChoice.len b = s.len b := by
  simp only [State.len, State.afterChoice_lens]

@[simp] theorem State.byte_afterChoice (s : State) (b : Slot) (i : Nat) : s.afterChoice.byte b i = s.byte b i := by
  simp only [State.byte, State.afterChoice_mem]

theorem sameData_initialise (s : State) : SameData s s.afterChoice.initialise := by constructor <;> simp

theorem sameStatus_initialise (s : State) : SameStatus s s.afterChoice.initialise := by constructor <;> simp

/-! ### Who moves while a port action waits -/

/-- At a ready engine the initialiser has nothing left to do (R222). -/
theorem State.initialiserMoves_of_ready {s : State} (h : s.ready = true) : s.initialiserMoves = false := by
  simp [State.initialiserMoves, h]

/-- At a ready engine no choice between two agents is open, whatever the host's next move (log 7). -/
theorem State.choiceOpen_of_ready {s : State} (h : s.ready = true) : s.choiceOpen = false := by
  rw [State.choiceOpen]
  split
  · simp [h]
  · rfl
  · rfl

theorem State.afterChoice_of_ready {s : State} (h : s.ready = true) : s.afterChoice = s := by
  simp [State.afterChoice, State.choiceOpen_of_ready h]

theorem step_of_initialiserMoves {s : State} (h : s.initialiserMoves = true) :
    step s = .next s.afterChoice.initialise := if_pos h

section
variable {s : State} {act : PortAction} {rest : List HostAction}

/-- The step in which the host makes its waiting port action. -/
theorem step_of_port (hhost : s.host = .port act :: rest) (hi : s.initialiserMoves = false) :
    step s = (s.afterChoice.withHost rest).portAction act := by
  simp [step, State.move, hi, hhost]

/-- What the host is handed in that step. -/
theorem hostGets_of_port (hhost : s.host = .port act :: rest) (hi : s.initialiserMoves = false) :
    s.hostGets = act.result s := by
  simp [State.hostGets, hi, hhost]

end

/-! ### `HostWriteBuf` -/

/-- `SetBuf` leaves zeros behind the new content (R7). -/
theorem zeroBehind_setBuf (s : State) (d : Slot) (q : List Byte) : ZeroBehind (s.setBuf d q) d := by
  intro i hlen hmax
  rw [State.len_setBuf_self] at hlen
  simp [State.byte_setBuf, Nat.not_lt.mpr hlen, show i < s.maxLen.toNat from hmax]

theorem outsideSlot_setBuf (s : State) (d : Slot) (q : List Byte) : OutsideSlot s (s.setBuf d q) d where
  regs _ := rfl
  lens b hb := by simp [State.len_setBuf, hb]
  bytes b i hb := s.byte_setBuf_ne q hb i
  xs := rfl
  ys := rfl
  rest := (quiet_setBuf s d q).rest

/-- The frame of `SetBuf` (R7). -/
theorem onlySlot_setBuf (s : State) (d : Slot) (q : List Byte) : OnlySlot s (s.setBuf d q) d where
  outside := outsideSlot_setBuf s d q
  beyond i hlen hmax := by
    rw [State.len_setBuf_self] at hlen
    simp [State.byte_setBuf, Nat.not_lt.mpr hlen, Nat.not_lt.mpr hmax]

theorem State.portAction_writeBuf {s : State} {q : List Byte} (b : Slot) (h : q.length ≤ s.maxLen.toNat) :
    s.portAction (.writeBuf b q) = .next (s.setBuf b q) := if_pos h

/-- The port does not offer a sequence longer than `MAXLEN` (R57; log 12). -/
theorem State.portAction_writeBuf_tooLong {s : State} {q : List Byte} (b : Slot) (h : s.maxLen.toNat < q.length) :
    s.portAction (.writeBuf b q) = .refused .noSuchHostMove := if_neg (Nat.not_le.mpr h)

/-- Settles O53: the step is the host's, and its action is `SetBuf` where the sequence fits. -/
theorem hostWriteBufSetsTheSlot : Obligations.HostWriteBufSetsTheSlot := by
  intro s b q rest hhost hi
  rw [step_of_port hhost hi]
  constructor
  · intro hq
    refine ⟨_, State.portAction_writeBuf b (by simpa using hq), State.buf_setBuf_self _ b q, zeroBehind_setBuf _ b q,
      onlySlot_setBuf _ b q, ?_⟩
    constructor <;> simp
  · intro hq
    exact State.portAction_writeBuf_tooLong b (by simpa using hq)

/-! ### The host's reads, and when a port action is made -/

/-- Settles O54: the step is the host's, a read's action is no change, and the port hands back what the action names. -/
theorem hostReadsChangeNothing : Obligations.HostReadsChangeNothing := by
  intro s act rest b r k hhost hi hread
  have hgets := hostGets_of_port hhost hi
  refine ⟨?_, fun h => hgets.trans (h ▸ rfl), fun h => hgets.trans (h ▸ rfl), fun h => hgets.trans (h ▸ rfl)⟩
  rw [step_of_port hhost hi]
  rcases hread with rfl | rfl | rfl <;> rfl

/-- Settles O55, by cases on which agent moves: the initialiser's step raises `READY` and leaves the action waiting. -/
theorem portActionWaitsAtMostOneStep : Obligations.PortActionWaitsAtMostOneStep := by
  intro s act rest hhost
  constructor
  · intro hready
    have hi := State.initialiserMoves_of_ready hready
    have hstep := step_of_port hhost hi
    rw [State.afterChoice_of_ready hready] at hstep
    exact ⟨hi, hstep⟩
  · intro _
    cases hi : s.initialiserMoves with
    | false => exact .inl ⟨rfl, step_of_port hhost hi⟩
    | true =>
      exact .inr ⟨rfl, _, step_of_initialiserMoves hi, rfl, rfl, sameData_initialise s, sameStatus_initialise s,
        s.afterChoice_maxLen, s.afterChoice_host, State.initialiserMoves_of_ready rfl⟩

end Sys2Proof.Machine
end

section
/-! SUPPORT. Decoder, encoder and opcode table against each other (R70 to R81): what each kind of field accepts, which fields each command has, O1, O2, O3 and O4, and the step of an illegal word, O6. -/

namespace Sys2Proof

/-! ### What each kind of field accepts -/

theorem Fields.eq_of_parts {f g : Fields} (hop : f.op = g.op) (ha : f.a = g.a) (hb : f.b = g.b) (hc : f.c = g.c)
    (hn : f.n = g.n) : f = g := by
  cases f; cases g; simp_all

theorem eq_ofNat_of_toNat_eq {f : Byte} {k : Nat} (h : f.toNat = k) : f = BitVec.ofNat 8 k := by simp [← h]

/-- Every byte is the field of a slot (R73). -/
theorem eq_slotByte (f : Byte) : f = slotByte (slotField f) := (slotByte_slotField f).symm

/-- Every `n` is the field of a number (R74). -/
theorem eq_numWord (n : Word32) : n = numWord n.toNat := (numWord_toNat n).symm

/-- A decoding step followed by others answers a command exactly when it answers and they do (R81). -/
theorem bind_eq_ok {α : Type} {x : Except Illegal α} {next : α → Except Illegal Instr} {i : Instr} :
    (x >>= next) = .ok i ↔ ∃ v, x = .ok v ∧ next v = .ok i := by
  cases x <;> simp [bind, Except.bind]

section
variable {f : Byte} {n : Word32} {i : Instr}

theorem regField_bind_eq_ok {next : Reg → Except Illegal Instr} :
    (regField f >>= next) = .ok i ↔ ∃ r, f = regByte r ∧ next r = .ok i := by
  simp only [bind_eq_ok, regField_eq_ok]

theorem zeroField_bind_eq_ok {next : Unit → Except Illegal Instr} :
    (zeroField f >>= next) = .ok i ↔ f = 0 ∧ next () = .ok i := by
  simp only [bind_eq_ok, ← zeroField_eq_ok]
  exact ⟨fun ⟨_, h⟩ => h, fun h => ⟨(), h⟩⟩

theorem zeroNumber_bind_eq_ok {next : Unit → Except Illegal Instr} :
    (zeroNumber n >>= next) = .ok i ↔ n = 0 ∧ next () = .ok i := by
  simp only [bind_eq_ok, ← zeroNumber_eq_ok]
  exact ⟨fun ⟨_, h⟩ => h, fun h => ⟨(), h⟩⟩

theorem immField_bind_eq_ok {next : Byte → Except Illegal Instr} :
    (immField n >>= next) = .ok i ↔ ∃ v : Byte, n = v.setWidth 32 ∧ next v = .ok i := by
  simp only [bind_eq_ok, immField_eq_ok]

theorem pure_eq_ok {j : Instr} : (pure j : Except Illegal Instr) = .ok i ↔ j = i := by
  simp [pure, Except.pure]

end

/-! ### The fields of a command name it, and no other fields do -/

/-- Each field of a well-formed command decodes to the operand it was made of; a number does because it fits (R72 to
R74). -/
theorem decodeFields_encodeFields {i : Instr} (h : i.wellFormed = true) : decodeFields (encodeFields i) = .ok i := by
  cases i with
  | pevalv | pshare | combine | ldb | stb | setlen =>
    simp [encodeFields, decodeFields, toNat_numWord h, bind, Except.bind, pure, Except.pure]
  | _ => simp [encodeFields, decodeFields, bind, Except.bind, pure, Except.pure]

/-- Fields that decode are those of the command they decode to, row by row of R72: a register or immediate field
names its operand, a slot or number is taken as it stands, and every other field is fixed. -/
theorem encodeFields_of_decodeFields {f : Fields} {i : Instr} (h : decodeFields f = .ok i) :
    i.wellFormed = true ∧ f = encodeFields i := by
  have fits := fitsN_toNat f.n
  rw [decodeFields] at h
  split at h <;> rename_i hop <;> simp only [regField_bind_eq_ok, zeroField_bind_eq_ok, zeroNumber_bind_eq_ok,
    immField_bind_eq_ok, pure_eq_ok, reduceCtorEq] at h
  all_goals replace hop := eq_ofNat_of_toNat_eq hop
  -- GFADD, GFMUL, GFDIV
  case h_1 | h_2 | h_3 =>
    obtain ⟨d, hd, a, ha, b, hb, hn, rfl⟩ := h
    exact ⟨rfl, Fields.eq_of_parts hop hd ha hb hn⟩
  -- GFINV, GFEXP, GFLOG
  case h_4 | h_5 | h_6 =>
    obtain ⟨d, hd, a, ha, hc, hn, rfl⟩ := h
    exact ⟨rfl, Fields.eq_of_parts hop hd ha hc hn⟩
  -- VADD, VMUL, VZERO
  case h_7 =>
    obtain ⟨hn, rfl⟩ := h
    exact ⟨rfl, Fields.eq_of_parts hop (eq_slotByte _) (eq_slotByte _) (eq_slotByte _) hn⟩
  case h_8 =>
    obtain ⟨x, hx, hn, rfl⟩ := h
    exact ⟨rfl, Fields.eq_of_parts hop (eq_slotByte _) (eq_slotByte _) hx hn⟩
  case h_9 =>
    obtain ⟨hb, hc, hn, rfl⟩ := h
    exact ⟨rfl, Fields.eq_of_parts hop (eq_slotByte _) hb hc hn⟩
  -- PEVAL; PEVALV, PSHARE
  case h_10 =>
    obtain ⟨d, hd, x, hx, hn, rfl⟩ := h
    exact ⟨rfl, Fields.eq_of_parts hop hd (eq_slotByte _) hx hn⟩
  case h_11 | h_12 =>
    obtain ⟨x, hx, rfl⟩ := h
    exact ⟨fits, Fields.eq_of_parts hop (eq_slotByte _) (eq_slotByte _) hx (eq_numWord _)⟩
  -- LAGR0, COMBINE
  case h_13 =>
    obtain ⟨d, hd, hn, rfl⟩ := h
    exact ⟨rfl, Fields.eq_of_parts hop hd (eq_slotByte _) (eq_slotByte _) hn⟩
  case h_14 =>
    obtain ⟨hc, rfl⟩ := h
    exact ⟨fits, Fields.eq_of_parts hop (eq_slotByte _) (eq_slotByte _) hc (eq_numWord _)⟩
  -- LDI; LDB, STB; SETLEN
  case h_15 =>
    obtain ⟨d, hd, hb, hc, v, hv, rfl⟩ := h
    exact ⟨rfl, Fields.eq_of_parts hop hd hb hc hv⟩
  case h_16 | h_17 =>
    obtain ⟨r, hr, hc, rfl⟩ := h
    exact ⟨fits, Fields.eq_of_parts hop hr (eq_slotByte _) hc (eq_numWord _)⟩
  case h_18 =>
    obtain ⟨ha, hc, rfl⟩ := h
    exact ⟨fits, Fields.eq_of_parts hop ha (eq_slotByte _) hc (eq_numWord _)⟩

/-- Settles O1: unpacking undoes packing, and the fields of a command name it. -/
theorem encodeThenDecodeGivesTheCommand : Obligations.EncodeThenDecodeGivesTheCommand := by
  intro i h
  rw [decode, encode, fieldsOf_packFields, decodeFields_encodeFields h]

/-- Settles O2: the fields of the word are those of the command, and the fields are the whole word. -/
theorem decodedWordIsTheCommandsWord : Obligations.DecodedWordIsTheCommandsWord := by
  intro w i h
  obtain ⟨hwf, hf⟩ := encodeFields_of_decodeFields h
  exact ⟨hwf, by rw [encode, ← hf, packFields_fieldsOf]⟩

/-! ### Masks and matches, field by field (R75) -/

theorem fieldsOf_inj {w v : CmdWord} : fieldsOf w = fieldsOf v ↔ w = v :=
  ⟨fun h => by rw [← packFields_fieldsOf w, h, packFields_fieldsOf], congrArg fieldsOf⟩

theorem fieldsOf_and (w m : CmdWord) : fieldsOf (w &&& m) =
    ⟨(fieldsOf w).op &&& (fieldsOf m).op, (fieldsOf w).a &&& (fieldsOf m).a, (fieldsOf w).b &&& (fieldsOf m).b,
      (fieldsOf w).c &&& (fieldsOf m).c, (fieldsOf w).n &&& (fieldsOf m).n⟩ := by
  simp only [fieldsOf, BitVec.extractLsb'_and]

/-- The mask of a field that must hold one value (R73, R75). -/
def fixedMask : Byte := 0xFF#8

/-- The mask of a register field: the register's four bits are free (R73). -/
def regMask : Byte := 0xF0#8

/-- The mask of a slot field: all eight bits are free (R73). -/
def slotMask : Byte := 0#8

/-- The mask of an unused `n` (R73, R75). -/
def fixedNumMask : Word32 := 0xFFFFFFFF#32

/-- The mask of LDI's `n`: the eight bits of the immediate are free (R74). -/
def immMask : Word32 := 0xFFFFFF00#32

/-- The mask of a count, offset or length: all 32 bits are free (R74). -/
def numMask : Word32 := 0#32

/-- The mask of a command's row, field by field (R72, R75). -/
def Instr.maskFields : Instr → Fields
  | .gfadd .. | .gfmul .. | .gfdiv .. => ⟨fixedMask, regMask, regMask, regMask, fixedNumMask⟩
  | .gfinv .. | .gfexp .. | .gflog .. => ⟨fixedMask, regMask, regMask, fixedMask, fixedNumMask⟩
  | .vadd .. => ⟨fixedMask, slotMask, slotMask, slotMask, fixedNumMask⟩
  | .vmul .. => ⟨fixedMask, slotMask, slotMask, regMask, fixedNumMask⟩
  | .vzero .. => ⟨fixedMask, slotMask, fixedMask, fixedMask, fixedNumMask⟩
  | .peval .. => ⟨fixedMask, regMask, slotMask, regMask, fixedNumMask⟩
  | .pevalv .. | .pshare .. => ⟨fixedMask, slotMask, slotMask, regMask, numMask⟩
  | .lagr0 .. => ⟨fixedMask, regMask, slotMask, slotMask, fixedNumMask⟩
  | .combine .. => ⟨fixedMask, slotMask, slotMask, fixedMask, numMask⟩
  | .ldi .. => ⟨fixedMask, regMask, fixedMask, fixedMask, immMask⟩
  | .ldb .. | .stb .. => ⟨fixedMask, regMask, slotMask, fixedMask, numMask⟩
  | .setlen .. => ⟨fixedMask, fixedMask, slotMask, fixedMask, numMask⟩

theorem Instr.row_mask (i : Instr) : i.row.mask = packFields i.maskFields := by
  cases i <;> simp only [Instr.row, Instr.maskFields] <;> decide

theorem Instr.row_pattern (i : Instr) : i.row.pattern = packFields ⟨(encodeFields i).op, 0, 0, 0, 0⟩ := by
  cases i <;> simp only [Instr.row, encodeFields] <;> decide

@[simp] theorem and_fixedMask (f : Byte) : f &&& fixedMask = f := BitVec.and_allOnes

@[simp] theorem and_slotMask (f : Byte) : f &&& slotMask = 0 := BitVec.and_zero

@[simp] theorem and_fixedNumMask (n : Word32) : n &&& fixedNumMask = n := BitVec.and_allOnes

@[simp] theorem and_numMask (n : Word32) : n &&& numMask = 0 := BitVec.and_zero

@[simp] theorem and_regMask_eq_zero {f : Byte} : f &&& regMask = 0#8 ↔ ∃ r, f = regByte r := by
  constructor
  · intro h
    have hlt : ∀ f : Byte, f &&& regMask = 0#8 → f.toNat < 16 := by decide
    exact ⟨⟨f.toNat, hlt f h⟩, by simp [regByte]⟩
  · rintro ⟨r, rfl⟩
    revert r; decide

theorem getElem_immMask {i : Nat} (hi : i < 32) : immMask[i] = decide (8 ≤ i) := by
  have h : immMask = BitVec.allOnes 32 <<< 8 := by decide
  simp only [h, BitVec.getElem_shiftLeft, BitVec.getElem_allOnes, Bool.and_true, ← Nat.not_lt, decide_not]

@[simp] theorem and_immMask_eq_zero {n : Word32} : n &&& immMask = 0#32 ↔ ∃ v : Byte, n = v.setWidth 32 := by
  constructor
  · intro h
    refine ⟨n.setWidth 8, ?_⟩
    ext i hi
    have hbit : (n &&& immMask)[i] = false := by simp [h]
    rw [BitVec.getElem_and, getElem_immMask] at hbit
    by_cases h8 : i < 8 <;> simp_all
  · rintro ⟨v, rfl⟩
    ext i hi
    by_cases h8 : i < 8 <;> simp_all [getElem_immMask]

/-- A word is covered by a command's row exactly when each of its fields agrees with the match on the bits of the
mask (R71, R75). -/
theorem row_covers_packFields {i : Instr} {f : Fields} : i.row.covers (packFields f) = true ↔
    f.op &&& i.maskFields.op = (encodeFields i).op ∧ f.a &&& i.maskFields.a = 0 ∧ f.b &&& i.maskFields.b = 0 ∧
      f.c &&& i.maskFields.c = 0 ∧ f.n &&& i.maskFields.n = 0 := by
  rw [OpRow.covers, beq_iff_eq, ← fieldsOf_inj, fieldsOf_and, Instr.row_mask, Instr.row_pattern]
  simp only [fieldsOf_packFields, Fields.mk.injEq]

/-- A word of a command's row is the word of a command of that row: the mask leaves free just the bits of the
operands (R72, R75). -/
theorem exists_command_of_covers {i : Instr} {f : Fields} (h : i.row.covers (packFields f) = true) :
    ∃ j : Instr, j.wellFormed = true ∧ f = encodeFields j ∧ j.row = i.row := by
  rw [row_covers_packFields] at h
  have fits := fitsN_toNat f.n
  cases i <;> simp only [Instr.maskFields, encodeFields, and_fixedMask, and_slotMask, and_fixedNumMask, and_numMask,
    and_regMask_eq_zero, and_immMask_eq_zero, BitVec.ofNat_eq_ofNat, true_and, and_true] at h
  case gfadd =>
    obtain ⟨hop, ⟨d, hd⟩, ⟨a, ha⟩, ⟨b, hb⟩, hn⟩ := h
    exact ⟨.gfadd d a b, rfl, Fields.eq_of_parts hop hd ha hb hn, rfl⟩
  case gfmul =>
    obtain ⟨hop, ⟨d, hd⟩, ⟨a, ha⟩, ⟨b, hb⟩, hn⟩ := h
    exact ⟨.gfmul d a b, rfl, Fields.eq_of_parts hop hd ha hb hn, rfl⟩
  case gfdiv =>
    obtain ⟨hop, ⟨d, hd⟩, ⟨a, ha⟩, ⟨b, hb⟩, hn⟩ := h
    exact ⟨.gfdiv d a b, rfl, Fields.eq_of_parts hop hd ha hb hn, rfl⟩
  case gfinv =>
    obtain ⟨hop, ⟨d, hd⟩, ⟨a, ha⟩, hc, hn⟩ := h
    exact ⟨.gfinv d a, rfl, Fields.eq_of_parts hop hd ha hc hn, rfl⟩
  case gfexp =>
    obtain ⟨hop, ⟨d, hd⟩, ⟨a, ha⟩, hc, hn⟩ := h
    exact ⟨.gfexp d a, rfl, Fields.eq_of_parts hop hd ha hc hn, rfl⟩
  case gflog =>
    obtain ⟨hop, ⟨d, hd⟩, ⟨a, ha⟩, hc, hn⟩ := h
    exact ⟨.gflog d a, rfl, Fields.eq_of_parts hop hd ha hc hn, rfl⟩
  case vadd =>
    obtain ⟨hop, hn⟩ := h
    exact ⟨.vadd _ _ _, rfl, Fields.eq_of_parts hop (eq_slotByte _) (eq_slotByte _) (eq_slotByte _) hn, rfl⟩
  case vmul =>
    obtain ⟨hop, ⟨x, hx⟩, hn⟩ := h
    exact ⟨.vmul _ _ x, rfl, Fields.eq_of_parts hop (eq_slotByte _) (eq_slotByte _) hx hn, rfl⟩
  case vzero =>
    obtain ⟨hop, hb, hc, hn⟩ := h
    exact ⟨.vzero _, rfl, Fields.eq_of_parts hop (eq_slotByte _) hb hc hn, rfl⟩
  case peval =>
    obtain ⟨hop, ⟨d, hd⟩, ⟨x, hx⟩, hn⟩ := h
    exact ⟨.peval d _ x, rfl, Fields.eq_of_parts hop hd (eq_slotByte _) hx hn, rfl⟩
  case pevalv =>
    obtain ⟨hop, x, hx⟩ := h
    exact ⟨.pevalv _ _ x _, fits, Fields.eq_of_parts hop (eq_slotByte _) (eq_slotByte _) hx (eq_numWord _), rfl⟩
  case pshare =>
    obtain ⟨hop, x, hx⟩ := h
    exact ⟨.pshare _ _ x _, fits, Fields.eq_of_parts hop (eq_slotByte _) (eq_slotByte _) hx (eq_numWord _), rfl⟩
  case lagr0 =>
    obtain ⟨hop, ⟨d, hd⟩, hn⟩ := h
    exact ⟨.lagr0 d _ _, rfl, Fields.eq_of_parts hop hd (eq_slotByte _) (eq_slotByte _) hn, rfl⟩
  case combine =>
    obtain ⟨hop, hc⟩ := h
    exact ⟨.combine _ _ _, fits, Fields.eq_of_parts hop (eq_slotByte _) (eq_slotByte _) hc (eq_numWord _), rfl⟩
  case ldi =>
    obtain ⟨hop, ⟨d, hd⟩, hb, hc, v, hv⟩ := h
    exact ⟨.ldi d v, rfl, Fields.eq_of_parts hop hd hb hc hv, rfl⟩
  case ldb =>
    obtain ⟨hop, ⟨d, hd⟩, hc⟩ := h
    exact ⟨.ldb d _ _, fits, Fields.eq_of_parts hop hd (eq_slotByte _) hc (eq_numWord _), rfl⟩
  case stb =>
    obtain ⟨hop, ⟨r, hr⟩, hc⟩ := h
    exact ⟨.stb r _ _, fits, Fields.eq_of_parts hop hr (eq_slotByte _) hc (eq_numWord _), rfl⟩
  case setlen =>
    obtain ⟨hop, ha, hc⟩ := h
    exact ⟨.setlen _ _, fits, Fields.eq_of_parts hop ha (eq_slotByte _) hc (eq_numWord _), rfl⟩

theorem row_covers_encode (i : Instr) : i.row.covers (encode i) = true := by
  rw [encode, row_covers_packFields]
  cases i <;> simp [Instr.maskFields, encodeFields]

theorem Instr.row_mem_opcodeTable (i : Instr) : i.row ∈ opcodeTable := by
  cases i <;> simp [opcodeTable, Instr.row]

theorem exists_row_of_mem_opcodeTable {r : OpRow} (h : r ∈ opcodeTable) : ∃ i : Instr, i.row = r := by
  rw [opcodeTable] at h
  fin_cases h <;> exact ⟨_, rfl⟩

/-- A row of the table covers exactly the words that decode to a command of that row (R75). -/
theorem covers_iff_decode {r : OpRow} (hr : r ∈ opcodeTable) {w : CmdWord} :
    r.covers w = true ↔ ∃ i, decode w = .ok i ∧ i.row = r := by
  constructor
  · intro h
    obtain ⟨i, rfl⟩ := exists_row_of_mem_opcodeTable hr
    rw [← packFields_fieldsOf w] at h
    obtain ⟨j, hwf, hf, hrow⟩ := exists_command_of_covers h
    exact ⟨j, by rw [decode, hf, decodeFields_encodeFields hwf], hrow⟩
  · rintro ⟨i, hd, rfl⟩
    rw [← (decodedWordIsTheCommandsWord w i hd).2]
    exact row_covers_encode i

/-- Settles O3: two rows that cover a word are both the row of the one command it decodes to. -/
theorem opcodeTableDecidesTheCommand : Obligations.OpcodeTableDecidesTheCommand := by
  intro w
  refine ⟨fun r hr => covers_iff_decode hr, fun r hr r' hr' h h' => ?_⟩
  obtain ⟨i, hi, rfl⟩ := (covers_iff_decode hr).mp h
  obtain ⟨j, hj, rfl⟩ := (covers_iff_decode hr').mp h'
  cases hi.symm.trans hj
  rfl

/-- A word is illegal exactly when no row of the table covers it (R76). -/
theorem decode_eq_error_iff {w : CmdWord} : (∃ why, decode w = .error why) ↔ ∀ r ∈ opcodeTable, r.covers w = false := by
  constructor
  · rintro ⟨why, hd⟩ r hr
    rw [← Bool.not_eq_true, covers_iff_decode hr, hd]
    simp
  · intro h
    cases hd : decode w with
    | error why => exact ⟨why, rfl⟩
    | ok i =>
      have hcovers := (covers_iff_decode i.row_mem_opcodeTable).mpr ⟨i, hd, rfl⟩
      simp [h _ i.row_mem_opcodeTable] at hcovers

/-- Settles O4: each word by evaluation, and every word with `op` 0x00 by its fields. -/
theorem workedEncodings : Obligations.WorkedEncodings := by
  refine ⟨rfl, rfl, rfl, rfl, rfl, rfl, rfl, rfl, rfl, fun a b c n => ?_, rfl, rfl⟩
  rw [decode, fieldsOf_packFields]
  rfl

end Sys2Proof

namespace Sys2Proof.Machine

/-! ### The step of an illegal word (R76, R192) -/

/-- The step in which a ready engine that has not stopped accepts the issued word (R192). -/
theorem step_of_issue {s : State} {w : CmdWord} {rest : List HostAction} (hhost : s.host = .issue w :: rest)
    (hready : s.ready = true) (hfatal : s.fatal = false) : step s = (s.withHost rest).accept w := by
  simp [step, State.move, State.initialiserMoves_of_ready hready, hhost, State.issue, hfatal]

theorem State.accept_of_decode_error {s : State} {w : CmdWord} {why : Illegal} (h : decode w = .error why) :
    s.accept w = s.raise .illegal (w.extractLsb' 32 32) := by
  rw [State.accept, h]

/-- `complete` with the code of a recoverable error reports it and does nothing else (R192, R193). -/
theorem reported_complete (s : State) {err : Err} (v : Word32) (h : isFatalCode err.code = false) :
    Reported s (s.complete err.code v) err v where
  errcode := rfl
  errinfo := rfl
  esticky := by simp
  fatal := by simp [h]
  pc := by simp [h]
  data := ⟨fun _ => rfl, fun _ => rfl, fun _ _ => rfl, rfl, rfl⟩
  rest := ⟨rfl, rfl, rfl, rfl, rfl⟩

/-- Settles O6: the rows decide which words are illegal, and the step of an illegal word is a report. -/
theorem illegalWordOnlyReports : Obligations.IllegalWordOnlyReports := by
  refine fun w => ⟨decode_eq_error_iff, fun s rest why hhost hready hfatal hd => ?_⟩
  refine ⟨_, ?_, reported_complete _ _ (by decide)⟩
  rw [step_of_issue hhost hready hfatal, State.accept_of_decode_error hd, State.raise_eq]

end Sys2Proof.Machine
end

section
/-! SUPPORT. The field (R90 to R95): over the built tables `EXP` runs through the powers of x, so products add exponents; O22 and O23. -/

namespace Sys2Proof.Machine

/-! ### Addition and multiplication over any tables -/

theorem Tables.expMod_congr (t : Tables) {i j : Nat} (h : i % 255 = j % 255) : t.expMod i = t.expMod j := by
  simp only [Tables.expMod, Config.order, h]

theorem gfMul_comm (t : Tables) (a b : Byte) : gfMul t a b = gfMul t b a := by
  simp only [gfMul, Or.comm, Nat.add_comm]

@[simp] theorem gfMul_zero_left (t : Tables) (b : Byte) : gfMul t 0#8 b = 0#8 := if_pos (.inl rfl)

@[simp] theorem gfMul_zero_right (t : Tables) (a : Byte) : gfMul t a 0#8 = 0#8 := if_pos (.inr rfl)

@[simp] theorem gfDiv_zero_left (t : Tables) (b : Byte) (hb : b ≠ 0) : gfDiv t 0#8 b hb = 0#8 := if_pos rfl

/-! ### `EXP` and `LOG` as exponential and logarithm (R22) -/

/-- The sentinel 0xFF is the logarithm of zero alone (R22, R101). -/
theorem toNat_logAt_lt {a : Byte} (ha : a ≠ 0) : (Tables.built.logAt a).toNat < 255 := by
  rw [logAt_built]
  exact (pass_reaches a.toFin fun h => ha (BitVec.eq_of_toFin_eq h)).1

theorem expAt_eq_expMod (t : Tables) {v : Byte} (hv : v.toNat < 255) : t.expAt v = t.expMod v.toNat := by
  simp only [Tables.expAt, Tables.expMod, Config.order, Nat.mod_eq_of_lt hv]

theorem expMod_logAt {a : Byte} (ha : a ≠ 0) : Tables.built.expMod (Tables.built.logAt a).toNat = a := by
  rw [← expAt_eq_expMod _ (toNat_logAt_lt ha), expAt_logAt_built a ha]

theorem toNat_logAt_expMod (n : Nat) : (Tables.built.logAt (Tables.built.expMod n)).toNat = n % 255 := by
  have hlt : n % 255 < 255 := Nat.mod_lt _ (by decide)
  have hv : (BitVec.ofNat 8 (n % 255)).toNat = n % 255 := by rw [BitVec.toNat_ofNat]; omega
  have hexp : Tables.built.expMod n = Tables.built.expAt (BitVec.ofNat 8 (n % 255)) := by
    rw [expAt_eq_expMod _ (by omega), hv]
    exact Tables.expMod_congr _ (by omega)
  rw [hexp, logAt_expAt_built _ (by omega), hv]

theorem expMod_ne_zero (n : Nat) : Tables.built.expMod n ≠ 0 := by
  obtain ⟨-, -, -, -, hlog, -⟩ := tableInvariants
  intro h
  have hn := toNat_logAt_expMod n
  rw [h, hlog, show (255 : Byte).toNat = 255 from rfl] at hn
  omega

@[simp] theorem expMod_zero : Tables.built.expMod 0 = 1#8 := by
  rw [expMod_built]; decide

/-! ### Products add exponents -/

theorem gfMul_expMod_expMod (m n : Nat) :
    gfMul Tables.built (Tables.built.expMod m) (Tables.built.expMod n) = Tables.built.expMod (m + n) := by
  rw [gfMul, if_neg (not_or_intro (expMod_ne_zero m) (expMod_ne_zero n)), toNat_logAt_expMod, toNat_logAt_expMod]
  exact Tables.expMod_congr _ (by omega)

theorem timesX_xor (a b : Byte) : timesX (a ^^^ b) = timesX a ^^^ timesX b := by
  simp only [timesX, BitVec.getLsbD_xor, BitVec.shiftLeft_xor_distrib]
  cases a.getLsbD 7 <;> cases b.getLsbD 7 <;> simp only [Bool.xor_self, Bool.xor_false, Bool.xor_true, Bool.not_false,
    if_true, Bool.false_eq_true, if_false]
  case false.true | true.false => ac_rfl
  case true.true =>
    rw [BitVec.xor_assoc, BitVec.xor_comm (b <<< 1), ← BitVec.xor_assoc 0x1D, BitVec.xor_self, BitVec.zero_xor]

/-- Entry after entry of `EXP` is the one before times x, the last one included (R21, R22). -/
theorem expMod_succ (n : Nat) : Tables.built.expMod (n + 1) = timesX (Tables.built.expMod n) := by
  have hround : ∀ i : Fin 255, packedAt expPacked ((i.val + 1) % 255) = timesX (packedAt expPacked i.val) := by
    decide +kernel
  rw [expMod_built, expMod_built, ← hround ⟨n % 255, Nat.mod_lt _ (by decide)⟩, Nat.mod_add_mod]

/-- `EXP[n mod 255]` is the power x^n. -/
theorem expMod_eq_iterate (n : Nat) : Tables.built.expMod n = timesX^[n] 1#8 := by
  induction n with
  | zero => exact expMod_zero
  | succ n ih => rw [expMod_succ, ih, Function.iterate_succ_apply']

/-- To multiply by x^n is to multiply `n` times by x. -/
theorem gfMul_expMod_left (n : Nat) (b : Byte) : gfMul Tables.built (Tables.built.expMod n) b = timesX^[n] b := by
  by_cases hb : b = 0
  · rw [hb]
    exact (gfMul_zero_right _ _).trans (Function.iterate_fixed rfl n).symm
  · rw [← expMod_logAt hb, gfMul_expMod_expMod, expMod_eq_iterate, expMod_eq_iterate, Function.iterate_add_apply]

/-! ### The product without tables (R94) -/

/-- A first factor times x is the product times x, at every pass of shift and reduce. -/
theorem polyMul_timesX (b : Byte) : Function.Commute (polyMul · b) timesX := fun a =>
  List.foldr_hom timesX (init := 0) fun i acc => by
    cases b.getLsbD i <;> simp [timesX_xor]

theorem polyMul_one_left : ∀ b, polyMul 1#8 b = b := by decide +kernel

theorem polyMul_zero_left : ∀ b, polyMul 0#8 b = 0#8 := by decide +kernel

/-- Settles O22: a nonzero first factor is a power of x, and both products multiply by x as often. -/
theorem tableProductIsThePolynomialProduct : Obligations.TableProductIsThePolynomialProduct := by
  intro a b
  by_cases ha : a = 0
  · rw [ha]
    exact (gfMul_zero_left _ _).trans (polyMul_zero_left b).symm
  · rw [← expMod_logAt ha, gfMul_expMod_left, expMod_eq_iterate]
    have hpoly := ((polyMul_timesX b).iterate_right (Tables.built.logAt a).toNat).eq 1#8
    rw [hpoly, polyMul_one_left]

/-! ### The laws of the field (R90 to R94) -/

theorem gfMul_one (a : Byte) : gfMul Tables.built a 1#8 = a := by
  rw [gfMul_comm, ← expMod_zero, gfMul_expMod_left, Function.iterate_zero_apply]

theorem gfMul_assoc (a b c : Byte) :
    gfMul Tables.built (gfMul Tables.built a b) c = gfMul Tables.built a (gfMul Tables.built b c) := by
  by_cases ha : a = 0
  · simp [ha]
  by_cases hb : b = 0
  · simp [hb]
  by_cases hc : c = 0
  · simp [hc]
  rw [← expMod_logAt ha, ← expMod_logAt hb, ← expMod_logAt hc]
  simp only [gfMul_expMod_expMod, Nat.add_assoc]

/-- A nonzero factor is a power of x, and multiplication by x is additive. -/
theorem gfMul_gfAdd (a b c : Byte) : gfMul Tables.built a (gfAdd b c) =
    gfAdd (gfMul Tables.built a b) (gfMul Tables.built a c) := by
  by_cases ha : a = 0
  · simp [ha, gfAdd]
  · have hadd : Function.Semiconj₂ timesX gfAdd gfAdd := timesX_xor
    rw [← expMod_logAt ha]
    simp only [gfMul_expMod_left]
    exact (hadd.iterate _).eq b c

theorem gfMul_ne_zero {a b : Byte} (ha : a ≠ 0) (hb : b ≠ 0) : gfMul Tables.built a b ≠ 0 := by
  rw [gfMul, if_neg (not_or_intro ha hb)]
  exact expMod_ne_zero _

theorem gfMul_gfInv {a : Byte} (ha : a ≠ 0) : gfMul Tables.built a (gfInv Tables.built a ha) = 1#8 := by
  have hlt := toNat_logAt_lt ha
  calc gfMul Tables.built a (gfInv Tables.built a ha)
      = Tables.built.expMod ((Tables.built.logAt a).toNat + (255 - (Tables.built.logAt a).toNat)) := by
        rw [← gfMul_expMod_expMod, expMod_logAt ha, gfInv]
    _ = Tables.built.expMod 0 := Tables.expMod_congr _ (by omega)
    _ = 1#8 := expMod_zero

theorem gfDiv_eq_gfMul_gfInv (a : Byte) {b : Byte} (hb : b ≠ 0) :
    gfDiv Tables.built a b hb = gfMul Tables.built a (gfInv Tables.built b hb) := by
  by_cases ha : a = 0
  · simp [ha]
  · have hlt := toNat_logAt_lt hb
    rw [gfDiv, if_neg ha, Nat.add_sub_assoc hlt.le, ← gfMul_expMod_expMod, expMod_logAt ha, gfInv]

theorem gfDiv_gfMul_self (a : Byte) {b : Byte} (hb : b ≠ 0) : gfDiv Tables.built (gfMul Tables.built a b) b hb = a := by
  rw [gfDiv_eq_gfMul_gfInv, gfMul_assoc, gfMul_gfInv, gfMul_one]

/-- Settles O23: addition is XOR, and each law of the product is a law of exponents. -/
theorem fieldLaws : Obligations.FieldLaws :=
  ⟨BitVec.xor_comm, fun _ => BitVec.xor_self, fun _ => BitVec.xor_zero, BitVec.xor_assoc,
    gfMul_comm _, gfMul_one, gfMul_zero_right _, gfMul_assoc, gfMul_gfAdd, fun _ _ => gfMul_ne_zero,
    fun a _ => gfDiv_gfMul_self a, fun _ => gfMul_gfInv, fun a _ => gfDiv_eq_gfMul_gfInv a,
    fun _ ha => (gfDiv_eq_gfMul_gfInv _ ha).trans (gfMul_gfInv ha), gfDiv_zero_left _⟩

end Sys2Proof.Machine
end

section
/-! SUPPORT. The scalar commands of the Field Engine (R96 to R101): how a command that writes one register ends, and O24 to O29. -/

namespace Sys2Proof.Machine

/-! ### How these commands end -/

/-- A command that writes one register and finishes changes beside it the status alone (R24, R192). -/
theorem onlyReg_complete_setE (s : State) (d : Reg) (v : Byte) : OnlyReg s ((s.setE d v).complete 0 0) d where
  regs r hr := by simp [State.e_setE_ne _ _ hr]
  lens _ := rfl
  bytes _ _ := rfl
  xs := rfl
  ys := rfl
  rest := ⟨rfl, rfl, rfl, rfl, rfl⟩

/-- `complete(0x00, 0)` after an effect that leaves the status and `pc` alone is success (R192). -/
theorem succeeded_complete {s u : State} (h : SameStatus s u) : Succeeded s (u.complete 0 0) := by
  constructor <;> simp [h.esticky, h.fatal, h.pc]

theorem succeeded_complete_setE (s : State) (d : Reg) (v : Byte) : Succeeded s ((s.setE d v).complete 0 0) :=
  succeeded_complete (quiet_setE s d v).status

/-- `complete` with a fatal code stops the engine and does nothing else (R192, R193, R194). -/
theorem stopped_complete (s : State) {err : Err} (h : isFatalCode err.code = true) : Stopped s (s.complete err.code 0) err where
  errcode := rfl
  errinfo := rfl
  esticky := by simp
  fatal := by simp [h]
  pc := by simp [h]
  data := ⟨fun _ => rfl, fun _ => rfl, fun _ _ => rfl, rfl, rfl⟩
  rest := ⟨rfl, rfl, rfl, rfl, rfl⟩

theorem e_complete_setE (s : State) (d : Reg) (v : Byte) : ((s.setE d v).complete 0 0).e d = v := by simp

/-! ### The fatal checks (R98, R99) -/

theorem exec_gfdiv_of_ne_zero (d a : Reg) {b : Reg} {s : State} (h : s.e b ≠ 0) :
    exec (.gfdiv d a b) s = .next ((s.setE d (gfDiv s.tables (s.e a) (s.e b) h)).complete 0 0) := dif_neg h

theorem exec_gfdiv_of_eq_zero (d a : Reg) {b : Reg} {s : State} (h : s.e b = 0) :
    exec (.gfdiv d a b) s = .next (s.complete Err.divZero.code 0) := dif_pos h

theorem exec_gfinv_of_ne_zero (d : Reg) {a : Reg} {s : State} (h : s.e a ≠ 0) :
    exec (.gfinv d a) s = .next ((s.setE d (gfInv s.tables (s.e a) h)).complete 0 0) := dif_neg h

theorem exec_gfinv_of_eq_zero (d : Reg) {a : Reg} {s : State} (h : s.e a = 0) :
    exec (.gfinv d a) s = .next (s.complete Err.invZero.code 0) := dif_pos h

/-! ### The commands -/

/-- Settles O24: the sum is computed from the old sources, then written. -/
theorem gfaddResultAndFrame : Obligations.GfaddResultAndFrame := fun d a b s =>
  ⟨encodeThenDecodeGivesTheCommand (.gfadd d a b) rfl, _, State.finish_eq _, e_complete_setE s d _,
    onlyReg_complete_setE s d _, succeeded_complete_setE s d _⟩

/-- Settles O25: the corner cases are the field's laws for 0 and 1. -/
theorem gfmulResultAndFrame : Obligations.GfmulResultAndFrame := by
  intro d a b s
  refine ⟨encodeThenDecodeGivesTheCommand (.gfmul d a b) rfl, _, State.finish_eq _, e_complete_setE s d _, ?_, ?_,
    onlyReg_complete_setE s d _, succeeded_complete_setE s d _⟩
  · rintro (h | h) <;> simp [h]
  · intro hbuilt
    rw [e_complete_setE, hbuilt]
    exact ⟨fun ha => by rw [ha, gfMul_comm]; exact gfMul_one _, fun hb => by rw [hb]; exact gfMul_one _⟩

/-- Settles O26, by cases on the denominator. -/
theorem gfdivResultAndFatalStop : Obligations.GfdivResultAndFatalStop := fun d a b s =>
  ⟨encodeThenDecodeGivesTheCommand (.gfdiv d a b) rfl,
    fun h => ⟨_, exec_gfdiv_of_ne_zero d a h, e_complete_setE s d _, onlyReg_complete_setE s d _,
      succeeded_complete_setE s d _⟩,
    fun h => ⟨_, exec_gfdiv_of_eq_zero d a h, stopped_complete s (by decide)⟩⟩

/-- Settles O27, by cases on the operand. -/
theorem gfinvResultAndFatalStop : Obligations.GfinvResultAndFatalStop := fun d a s =>
  ⟨encodeThenDecodeGivesTheCommand (.gfinv d a) rfl,
    fun h => ⟨_, exec_gfinv_of_ne_zero d h, e_complete_setE s d _, onlyReg_complete_setE s d _,
      succeeded_complete_setE s d _⟩,
    fun h => ⟨_, exec_gfinv_of_eq_zero d h, stopped_complete s (by decide)⟩⟩

/-- Both ends of `EXP` hold 0x01 (R21, R23). -/
theorem expAt_built_ends {v : Byte} (h : v = 0x00 ∨ v = 0xFF) : Tables.built.expAt v = 0x01 := by
  rw [expAt_built]
  rcases h with rfl | rfl <;> decide

/-- Settles O28: the entry read is written, and both ends of `EXP` hold 0x01. -/
theorem gfexpResultAndFrame : Obligations.GfexpResultAndFrame := fun d a s =>
  ⟨encodeThenDecodeGivesTheCommand (.gfexp d a) rfl, _, State.finish_eq _, e_complete_setE s d _,
    fun hbuilt hends => by rw [e_complete_setE, hbuilt, expAt_built_ends hends],
    onlyReg_complete_setE s d _, succeeded_complete_setE s d _⟩

/-- Settles O29: the entry read is written, and the sentinel stands at 0x00 alone. -/
theorem gflogResultAndFrame : Obligations.GflogResultAndFrame := by
  intro d a s
  refine ⟨encodeThenDecodeGivesTheCommand (.gflog d a) rfl, _, State.finish_eq _, e_complete_setE s d _, fun hbuilt => ?_,
    onlyReg_complete_setE s d _, succeeded_complete_setE s d _⟩
  obtain ⟨-, -, -, -, hsentinel, -⟩ := tableInvariants
  rw [e_complete_setE, hbuilt]
  split
  · rename_i hzero
    rw [hzero, hsentinel]
  · rename_i hne
    exact Nat.le_of_lt_succ (toNat_logAt_lt hne)

end Sys2Proof.Machine
end

section
/-! SUPPORT. The vector commands of the Field Engine (R110 to R113): how a command that writes one slot ends, and O30, O31 and O32. -/

namespace Sys2Proof.Machine

/-! ### How these commands end -/

/-- The end of a command writes the status alone: the frame of the effect before it stays (R192). -/
theorem OutsideSlot.complete {s u : State} {d : Slot} (h : OutsideSlot s u d) (code : Byte) (v : Word32) :
    OutsideSlot s (u.complete code v) d where
  regs := h.regs
  lens := h.lens
  bytes := h.bytes
  xs := h.xs
  ys := h.ys
  rest := ⟨h.rest.tables, h.rest.maxLen, h.rest.ready, h.rest.host, h.rest.freeCount⟩

theorem OnlySlot.complete {s u : State} {d : Slot} (h : OnlySlot s u d) (code : Byte) (v : Word32) :
    OnlySlot s (u.complete code v) d where
  outside := h.outside.complete code v
  beyond := h.beyond

/-- Zeroing bytes of a slot changes nothing outside it. -/
theorem outsideSlot_zeroBytes (s : State) (d : Slot) (lo hi : Nat) : OutsideSlot s (s.zeroBytes d lo hi) d where
  regs _ := rfl
  lens _ _ := rfl
  bytes b i hb := by simp [State.byte_zeroBytes, hb]
  xs := rfl
  ys := rfl
  rest := (quiet_zeroBytes s d lo hi).rest

/-- What the end of a command that writes one slot says of the rest: `SetBuf`'s zeros and frame, and success (R7, R192). -/
theorem complete_setBuf_frame (s : State) (d : Slot) (q : List Byte) :
    ZeroBehind ((s.setBuf d q).complete 0 0) d ∧ OnlySlot s ((s.setBuf d q).complete 0 0) d ∧
      Succeeded s ((s.setBuf d q).complete 0 0) :=
  ⟨zeroBehind_setBuf s d q, (onlySlot_setBuf s d q).complete 0 0, succeeded_complete (quiet_setBuf s d q).status⟩

/-! ### The buffers computed -/

/-- VADD's sum of two slots of equal length is as long as each (R111). -/
theorem State.length_zipWith_buf {s : State} {a b : Slot} (f : Byte → Byte → Byte) (h : s.len a = s.len b) :
    ((s.buf a).zipWith f (s.buf b)).length = s.len a := by
  simp [← h]

theorem State.getD_zipWith_buf {s : State} {a b : Slot} {i : Nat} (f : Byte → Byte → Byte) (ha : i < s.len a)
    (hb : i < s.len b) : ((s.buf a).zipWith f (s.buf b)).getD i 0 = f (s.byte a i) (s.byte b i) := by
  simp [State.buf, List.getD, ha, hb]

theorem State.getD_map_buf {s : State} {a : Slot} {i : Nat} (f : Byte → Byte) (h : i < s.len a) :
    ((s.buf a).map f).getD i 0 = f (s.byte a i) := by
  simp [State.buf, List.getD, h]

/-- A row times 0x00 is a row of zeros, over any tables (R112). -/
theorem map_gfMul_zero (t : Tables) (q : List Byte) : (q.map fun v => gfMul t v 0) = List.replicate q.length 0 := by
  simp

/-- A row times 0x01 is the row (R112). -/
theorem map_gfMul_one (q : List Byte) : (q.map fun v => gfMul Tables.built v 1) = q :=
  (List.map_congr_left fun v _ => gfMul_one v).trans (List.map_id' q)

/-! ### The length check of VADD (R111) -/

theorem exec_vadd_of_len_eq (d : Slot) {a b : Slot} {s : State} (h : s.len a = s.len b) :
    exec (.vadd d a b) s = .next ((s.setBuf d ((s.buf a).zipWith gfAdd (s.buf b))).complete 0 0) := by
  simp [exec, execVadd, h]

theorem exec_vadd_of_len_ne (d : Slot) {a b : Slot} {s : State} (h : s.len a ≠ s.len b) :
    exec (.vadd d a b) s = .next (s.complete Err.lenMismatch.code (info b.val)) := by
  simp [exec, execVadd, bne_iff_ne.mpr h]

/-! ### The commands -/

/-- Settles O30, by cases on the lengths: the sum is computed from the old sources, then written. -/
theorem vaddResultAndFrame : Obligations.VaddResultAndFrame := by
  intro d a b s
  refine ⟨encodeThenDecodeGivesTheCommand (.vadd d a b) rfl, fun heq => ?_, fun hne => ?_⟩
  · have hlen := State.length_zipWith_buf gfAdd heq
    refine ⟨_, exec_vadd_of_len_eq d heq, (State.len_setBuf_self ..).trans hlen, fun i hi => ?_,
      complete_setBuf_frame s d _⟩
    calc ((s.setBuf d ((s.buf a).zipWith gfAdd (s.buf b))).complete 0 0).byte d i
        = ((s.buf a).zipWith gfAdd (s.buf b)).getD i 0 := s.byte_setBuf_lt d _ (hlen ▸ hi)
      _ = gfAdd (s.byte a i) (s.byte b i) := State.getD_zipWith_buf gfAdd hi (heq ▸ hi)
  · exact ⟨_, exec_vadd_of_len_ne d hne, reported_complete s _ (by decide)⟩

/-- Settles O31: each product is computed from the old source, and the scalars 0x00 and 0x01 are the field's laws for a
row. -/
theorem vmulResultAndFrame : Obligations.VmulResultAndFrame := by
  intro d a x s
  have hlen : ((s.buf a).map fun v => gfMul s.tables v (s.e x)).length = s.len a := by simp
  refine ⟨encodeThenDecodeGivesTheCommand (.vmul d a x) rfl, _, State.finish_eq _,
    (State.len_setBuf_self ..).trans hlen, fun i hi => ?_, fun hzero => ?_, fun hbuilt hone => ?_,
    complete_setBuf_frame s d _⟩
  · exact (s.byte_setBuf_lt d _ (hlen ▸ hi)).trans (State.getD_map_buf _ hi)
  · rw [State.buf_complete, State.buf_setBuf_self, hzero, map_gfMul_zero, State.length_buf]
  · rw [State.buf_complete, State.buf_setBuf_self, hbuilt, hone, map_gfMul_one]

/-- Settles O32: of the slot's bytes those below its length are zeroed, and nothing else. -/
theorem vzeroResultAndFrame : Obligations.VzeroResultAndFrame := by
  intro d s
  refine ⟨encodeThenDecodeGivesTheCommand (.vzero d) rfl, _, State.finish_eq _, rfl, fun i hi => ?_, fun i hi => ?_,
    (outsideSlot_zeroBytes s d 0 (s.len d)).complete 0 0, succeeded_complete (quiet_zeroBytes s d 0 (s.len d)).status⟩
  · simp [State.byte_zeroBytes, hi]
  · simp [State.byte_zeroBytes, Nat.not_lt.mpr hi]

end Sys2Proof.Machine
end

section
/-! SUPPORT. The Polynomial Evaluator (R120 to R125): Horner's form, of one polynomial and of one at each position of a block, the checks of the block commands, and O33 to O37. -/

namespace Sys2Proof.Machine

/-! ### The scalar Horner form (R120) -/

@[simp] theorem horner_nil (t : Tables) (x : Byte) : horner t [] x = 0#8 := rfl

/-- A new constant term: the others times `x`, plus it. With no others this is `0 * x + c`, for any tables (R120). -/
@[simp] theorem horner_cons (t : Tables) (c : Byte) (q : List Byte) (x : Byte) :
    horner t (c :: q) x = gfAdd (gfMul t (horner t q x) x) c := by
  unfold horner
  rw [List.reverse_cons]
  cases q.reverse with
  | nil => simp [gfAdd]
  | cons top lower => simp

theorem horner_singleton (t : Tables) (c x : Byte) : horner t [c] x = c := by simp [gfAdd]

/-- At 0 only the constant term counts, for any tables (R120). -/
theorem horner_at_zero (t : Tables) (q : List Byte) : horner t q 0 = q.headD 0 := by
  cases q with
  | nil => rfl
  | cons c q => simp [gfAdd]

/-- At 1 every coefficient counts once; the sum does not depend on the end it is taken from (R120). -/
theorem horner_at_one (q : List Byte) : horner Tables.built q 1 = q.foldl gfAdd 0 := by
  have : Std.Commutative gfAdd := ⟨BitVec.xor_comm⟩
  have : Std.Associative gfAdd := ⟨BitVec.xor_assoc⟩
  rw [List.foldl_eq_foldr]
  induction q with
  | nil => rfl
  | cons c q ih =>
    calc horner Tables.built (c :: q) 1
        = gfAdd (horner Tables.built q 1) c := by rw [horner_cons]; exact congrArg (gfAdd · c) (gfMul_one _)
      _ = gfAdd c (q.foldr gfAdd 0) := by rw [ih]; exact BitVec.xor_comm ..

/-- Settles O36, by Horner's form at each of the points. -/
theorem hornerAtZeroAtOneAndOfOneCoefficient : Obligations.HornerAtZeroAtOneAndOfOneCoefficient := fun q =>
  ⟨horner_at_zero _ q, horner_at_one q, horner_singleton _⟩

/-! ### Horner's form at every position (R121) -/

/-- A new buffer of constant terms: one step of Horner's form at every position. -/
theorem hornerVec_reverse_cons (t : Tables) (top q : List Byte) (bufs : List (List Byte)) (x : Byte) :
    hornerVec t top (q :: bufs).reverse x =
      (hornerVec t top bufs.reverse x).zipWith (fun r c => gfAdd (gfMul t r x) c) q := by
  simp [hornerVec]

theorem length_hornerVec_reverse (t : Tables) {top : List Byte} {bufs : List (List Byte)} (x : Byte)
    (h : ∀ q ∈ bufs, q.length = top.length) : (hornerVec t top bufs.reverse x).length = top.length := by
  induction bufs with
  | nil => rfl
  | cons q bufs ih =>
    obtain ⟨hq, hbufs⟩ := List.forall_mem_cons.mp h
    rw [hornerVec_reverse_cons, List.length_zipWith, ih hbufs, hq, Nat.min_self]

theorem getD_hornerVec_reverse (t : Tables) {top : List Byte} {bufs : List (List Byte)} (x : Byte) {p : Nat}
    (h : ∀ q ∈ bufs, q.length = top.length) (hp : p < top.length) :
    (hornerVec t top bufs.reverse x).getD p 0 = horner t ((bufs ++ [top]).map fun q => q.getD p 0) x := by
  induction bufs with
  | nil => exact (horner_singleton ..).symm
  | cons q bufs ih =>
    obtain ⟨hq, hbufs⟩ := List.forall_mem_cons.mp h
    have hlen := length_hornerVec_reverse t x hbufs
    rw [List.cons_append, List.map_cons, horner_cons, ← ih hbufs, hornerVec_reverse_cons]
    simp [List.getD, hlen, hq, hp]

/-- Settles O37, by induction on the buffers of lower degree: each adds one step of Horner's form at the position. -/
theorem vectorHornerIsScalarHornerAtEachPosition : Obligations.VectorHornerIsScalarHornerAtEachPosition :=
  fun t _ _ x _ h hp => ⟨length_hornerVec_reverse t x h, getD_hornerVec_reverse t x h hp⟩

/-! ### The blocks of PEVALV and PSHARE (R123, R124) -/

theorem State.block_succ (s : State) (a : Slot) (k : Nat) :
    s.block a (k + 1) = s.block a k ++ [s.buf (slotAt a k)] := by
  simp [State.block, List.range_succ]

/-- The bytes at one position of a block are a column of it (R121, R139). -/
theorem State.map_getD_block {s : State} {a : Slot} {k p : Nat} (h : ∀ j, j < k → p < s.len (slotAt a j)) :
    ((s.block a k).map fun q => q.getD p 0) = s.column a k p := by
  rw [State.block, List.map_map]
  exact List.map_congr_left fun j hj => s.getD_buf _ (h j (List.mem_range.mp hj))

section
variable {s : State} {a : Slot} {k : Nat} (hk : 1 ≤ k) (hlen : ∀ j, j < k → s.len (slotAt a j) = s.len a)
include hk hlen

/-- In a block of equal lengths each lower buffer is as long as the one Horner's form is seeded from. -/
theorem State.length_of_mem_lower_block :
    ∀ q ∈ s.block a (k - 1), q.length = (s.buf (slotAt a (k - 1))).length := by
  intro q hq
  obtain ⟨j, hj, rfl⟩ := List.mem_map.mp hq
  have hj := List.mem_range.mp hj
  rw [State.length_buf, State.length_buf, hlen j (by omega), hlen (k - 1) (by omega)]

theorem State.length_evalBlock (x : Byte) : (s.evalBlock a k x).length = s.len a := by
  rw [State.evalBlock, length_hornerVec_reverse _ _ (State.length_of_mem_lower_block hk hlen), State.length_buf,
    hlen (k - 1) (by omega)]

/-- Position `p` of the result is the value of the polynomial whose coefficients stand at `p` in the block (R121). -/
theorem State.getD_evalBlock (x : Byte) {p : Nat} (hp : p < s.len a) :
    (s.evalBlock a k x).getD p 0 = horner s.tables (s.column a k p) x := by
  have hseed : p < (s.buf (slotAt a (k - 1))).length := by rwa [State.length_buf, hlen (k - 1) (by omega)]
  rw [State.evalBlock, getD_hornerVec_reverse _ _ (State.length_of_mem_lower_block hk hlen) hseed, ← State.block_succ,
    Nat.sub_add_cancel hk, State.map_getD_block fun j hj => by rwa [hlen j hj]]

end

/-! ### The checks of the block commands (R123, R124, R139) -/

theorem inBlock_iff {d a : Slot} {k : Nat} : inBlock d a k = true ↔ 1 ≤ k ∧ a.val ≤ d.val ∧ d.val ≤ a.val + k - 1 := by
  simp [inBlock, and_assoc]

theorem inBlock_eq_false {d a : Slot} {k : Nat} (h : ¬ (a.val ≤ d.val ∧ d.val ≤ a.val + k - 1)) :
    inBlock d a k = false :=
  Bool.eq_false_iff.mpr fun hin => h (inBlock_iff.mp hin).2

/-- The mismatch reported is the lowest one (R123, R139). -/
theorem State.firstMismatch_eq_some {s : State} {a : Slot} {k j : Nat} (hfirst : 1 ≤ j) (hlast : j < k)
    (hne : s.len (slotAt a j) ≠ s.len a) (hlow : ∀ i, 1 ≤ i → i < j → s.len (slotAt a i) = s.len a) :
    s.firstMismatch a k = some j := by
  rw [State.firstMismatch, find?_range_eq_some]
  refine ⟨hlast, by simp [hfirst, hne], fun i hi => ?_⟩
  rcases Nat.eq_zero_or_pos i with rfl | hpos
  · rfl
  · simp [hlow i hpos hi]

theorem State.sourcesCheck_of_alias (s : State) {d a : Slot} {k : Nat} (hk : 1 ≤ k) (hfirst : a.val ≤ d.val)
    (hlast : d.val ≤ a.val + k - 1) : s.sourcesCheck d a k = some (.aliased, info d.val) := by
  rw [State.sourcesCheck, inBlock_iff.mpr ⟨hk, hfirst, hlast⟩]
  rfl

section
variable {s : State} {d a : Slot} {k j : Nat} (hout : ¬ (a.val ≤ d.val ∧ d.val ≤ a.val + k - 1))
include hout

theorem State.sourcesCheck_of_mismatch (hfirst : 1 ≤ j) (hlast : j < k) (hne : s.len (slotAt a j) ≠ s.len a)
    (hlow : ∀ i, 1 ≤ i → i < j → s.len (slotAt a i) = s.len a) :
    s.sourcesCheck d a k = some (.lenMismatch, info (a.val + j)) := by
  rw [State.sourcesCheck, inBlock_eq_false hout, State.firstMismatch_eq_some hfirst hlast hne hlow]
  rfl

theorem State.sourcesCheck_of_legal (hlen : ∀ j, j < k → s.len (slotAt a j) = s.len a) : s.sourcesCheck d a k = none := by
  rw [State.sourcesCheck, inBlock_eq_false hout, State.firstMismatch_eq_none.mpr hlen]
  rfl

end

/-- A check that passes leaves the outcome to those after it. -/
theorem raiseIf_orElse {bad : Bool} {err : Err} {v : Word32} {rest : Option (Err × Word32)} :
    (raiseIf bad err v <|> rest) = if bad then some (err, v) else rest := by
  cases bad <;> rfl

theorem State.pevalvCheck_of_range {s : State} (d : Slot) {a : Slot} {k : Nat} (h : k = 0 ∨ a.val + k > 256) :
    s.pevalvCheck d a k = some (.range, info k) := by
  rw [State.pevalvCheck, raiseIf_orElse, if_pos (by simpa [pastLastSlot] using h)]

theorem State.pevalvCheck_of_fits {s : State} (d : Slot) {a : Slot} {k : Nat} (hk : 1 ≤ k) (hlast : a.val + k ≤ 256) :
    s.pevalvCheck d a k = s.sourcesCheck d a k := by
  rw [State.pevalvCheck, raiseIf_orElse, if_neg (by simp [pastLastSlot]; omega)]

theorem State.pshareCheck_of_range {s : State} (d : Slot) {a : Slot} (x : Reg) {k : Nat}
    (h : k = 0 ∨ a.val + k > 256 ∨ s.len a + 1 > s.maxLen.toNat) : s.pshareCheck d a x k = some (.range, info k) := by
  rw [State.pshareCheck, raiseIf_orElse, if_pos (by simpa [pastLastSlot, or_assoc] using h)]

section
variable {s : State} {d a : Slot} {k : Nat} (x : Reg) (hk : 1 ≤ k) (hlast : a.val + k ≤ 256)
  (hroom : s.len a + 1 ≤ s.maxLen.toNat)
include hk hlast hroom

theorem State.pshareCheck_of_fits :
    s.pshareCheck d a x k = (s.sourcesCheck d a k <|> raiseIf (s.e x == 0x00) .zeroX 0) := by
  rw [State.pshareCheck, raiseIf_orElse, if_neg (by simp [pastLastSlot]; omega)]

theorem State.pshareCheck_of_sources_fail {failed : Err × Word32} (h : s.sourcesCheck d a k = some failed) :
    s.pshareCheck d a x k = some failed := by
  rw [State.pshareCheck_of_fits x hk hlast hroom, h]
  rfl

/-- On a legal block the x-coordinate decides, last of all (R124). -/
theorem State.pshareCheck_of_sources_pass (h : s.sourcesCheck d a k = none) :
    s.pshareCheck d a x k = if s.e x = 0 then some (.zeroX, 0) else none := by
  rw [State.pshareCheck_of_fits x hk hlast hroom, h]
  simp [raiseIf]

end

/-- A checked command whose first failing check is a recoverable error reports it (R192). -/
theorem State.checked_reports {s : State} {check : Option (Err × Word32)} (effect : State → State) {err : Err}
    {v : Word32} (h : check = some (err, v)) (herr : isFatalCode err.code = false) :
    ∃ t, s.checked check effect = .next t ∧ Reported s t err v := by
  rw [h]
  exact ⟨_, State.checked_some .., reported_complete s v herr⟩

/-- A checked command whose checks pass and whose effect is a `SetBuf`: the slot's new length and bytes, its frame, and
success (R7, R192). -/
theorem State.checked_setBuf {s : State} {check : Option (Err × Word32)} (d : Slot) (q : State → List Byte)
    (h : check = none) :
    ∃ t, s.checked check (fun u => u.setBuf d (q u)) = .next t ∧ t.len d = (q s).length ∧
      (∀ i, i < (q s).length → t.byte d i = (q s).getD i 0) ∧ ZeroBehind t d ∧ OnlySlot s t d ∧ Succeeded s t := by
  rw [h]
  exact ⟨_, State.checked_none .., State.len_setBuf_self .., fun _ => s.byte_setBuf_lt d _, complete_setBuf_frame s d _⟩

theorem exec_pevalv_reports {d a : Slot} {k : Nat} {s : State} (x : Reg) {err : Err} {v : Word32}
    (h : s.pevalvCheck d a k = some (err, v)) (herr : isFatalCode err.code = false) :
    ∃ t, exec (.pevalv d a x k) s = .next t ∧ Reported s t err v := by
  simp only [exec, execPevalv]
  exact State.checked_reports _ h herr

theorem exec_pshare_reports {d a : Slot} {x : Reg} {k : Nat} {s : State} {err : Err} {v : Word32}
    (h : s.pshareCheck d a x k = some (err, v)) (herr : isFatalCode err.code = false) :
    ∃ t, exec (.pshare d a x k) s = .next t ∧ Reported s t err v := by
  simp only [exec, execPshare]
  exact State.checked_reports _ h herr

/-! ### The commands -/

/-- Settles O33: no check stands before the effect, and an empty slot has no coefficients. -/
theorem pevalResultAndFrame : Obligations.PevalResultAndFrame := by
  intro d a x s
  refine ⟨encodeThenDecodeGivesTheCommand (.peval d a x) rfl, _, State.finish_eq _, e_complete_setE s d _, fun hempty => ?_,
    onlyReg_complete_setE s d _, succeeded_complete_setE s d _⟩
  have hbuf : s.buf a = [] := List.eq_nil_of_length_eq_zero ((s.length_buf a).trans hempty)
  rw [e_complete_setE, hbuf]
  exact horner_nil ..

/-- Settles O34: the checks in their order decide the case, and on a legal block the destination takes `horner_vec` of
the block. -/
theorem pevalvResultAndRejections : Obligations.PevalvResultAndRejections := by
  intro d a x k s
  refine ⟨fun hfits => encodeThenDecodeGivesTheCommand (.pevalv d a x k) (decide_eq_true hfits),
    fun hk hlast hout hlen => ?_, fun hrange => exec_pevalv_reports x (State.pevalvCheck_of_range d hrange) (by decide),
    fun hk hlast hfirst hd => ?_, fun j hk hlast hout hj hjk hne hlow => ?_⟩
  · have hcheck := (State.pevalvCheck_of_fits d hk hlast).trans (State.sourcesCheck_of_legal hout hlen)
    obtain ⟨t, ht, htlen, hbytes, hframe⟩ := State.checked_setBuf d (fun u => u.evalBlock a k (u.e x)) hcheck
    rw [State.length_evalBlock hk hlen] at htlen hbytes
    exact ⟨t, ht, htlen, fun p hp => (hbytes p hp).trans (State.getD_evalBlock hk hlen _ hp), hframe⟩
  · have halias := s.sourcesCheck_of_alias hk hfirst hd
    exact exec_pevalv_reports x ((State.pevalvCheck_of_fits d hk hlast).trans halias) (by decide)
  · have hmismatch := State.sourcesCheck_of_mismatch hout hj hjk hne hlow
    exact exec_pevalv_reports x ((State.pevalvCheck_of_fits d hk hlast).trans hmismatch) (by decide)

/-- Settles O35: PEVALV's checks with room for one byte more, then the x-coordinate; the share is the x-coordinate in
front of `horner_vec` of the block. -/
theorem pshareResultAndRejections : Obligations.PshareResultAndRejections := by
  intro d a x k s
  refine ⟨fun hfits => encodeThenDecodeGivesTheCommand (.pshare d a x k) (decide_eq_true hfits),
    fun hk hlast hroom hout hlen hx => ?_,
    fun hrange => exec_pshare_reports (State.pshareCheck_of_range d x hrange) (by decide),
    fun hk hlast hroom hfirst hd => ?_, fun j hk hlast hroom hout hj hjk hne hlow => ?_,
    fun hk hlast hroom hout hlen hx => ?_⟩
  · have hlegal := State.sourcesCheck_of_legal hout hlen
    have hcheck := (State.pshareCheck_of_sources_pass x hk hlast hroom hlegal).trans (if_neg hx)
    obtain ⟨t, ht, htlen, hbytes, hframe⟩ := State.checked_setBuf d (fun u => u.e x :: u.evalBlock a k (u.e x)) hcheck
    rw [List.length_cons, State.length_evalBlock hk hlen] at htlen hbytes
    exact ⟨t, ht, htlen, hbytes 0 (Nat.succ_pos _),
      fun p hp => (hbytes (p + 1) (Nat.succ_lt_succ hp)).trans (State.getD_evalBlock hk hlen _ hp), hframe⟩
  · have halias := s.sourcesCheck_of_alias hk hfirst hd
    exact exec_pshare_reports (State.pshareCheck_of_sources_fail x hk hlast hroom halias) (by decide)
  · have hmismatch := State.sourcesCheck_of_mismatch hout hj hjk hne hlow
    exact exec_pshare_reports (State.pshareCheck_of_sources_fail x hk hlast hroom hmismatch) (by decide)
  · have hlegal := State.sourcesCheck_of_legal hout hlen
    exact exec_pshare_reports ((State.pshareCheck_of_sources_pass x hk hlast hroom hlegal).trans (if_pos hx)) (by decide)

end Sys2Proof.Machine
end

section
/-! SUPPORT. Which commands can stop the engine (R141, R190): every check raises a recoverable error, and O18. -/

namespace Sys2Proof.Machine

/-- A check whose error, if it has one, is recoverable (R190, R191). -/
def Recoverable (check : Option (Err × Word32)) : Prop := ∀ e ∈ check, isFatalCode e.1.code = false

theorem recoverable_raiseIf {err : Err} {bad : Bool} {v : Word32} (h : isFatalCode err.code = false) :
    Recoverable (raiseIf bad err v) := by
  cases bad <;> simp [Recoverable, h]

theorem recoverable_raiseAt {err : Err} {found : Option Nat} {v : Nat → Word32} (h : isFatalCode err.code = false) :
    Recoverable (raiseAt found err v) := by
  cases found <;> simp [Recoverable, h]

theorem Recoverable.orElse {c c' : Option (Err × Word32)} (h : Recoverable c) (h' : Recoverable c') :
    Recoverable (c <|> c') := by
  cases c with
  | none => exact h'
  | some e => exact h

theorem State.sourcesCheck_recoverable {s : State} {d a : Slot} {k : Nat} : Recoverable (s.sourcesCheck d a k) :=
  (recoverable_raiseIf (by decide)).orElse (recoverable_raiseAt (by decide))

theorem State.pevalvCheck_recoverable {s : State} {d a : Slot} {k : Nat} : Recoverable (s.pevalvCheck d a k) :=
  (recoverable_raiseIf (by decide)).orElse State.sourcesCheck_recoverable

theorem State.pshareCheck_recoverable {s : State} {d a : Slot} {x : Reg} {k : Nat} : Recoverable (s.pshareCheck d a x k) :=
  (recoverable_raiseIf (by decide)).orElse <|
    State.sourcesCheck_recoverable.orElse (recoverable_raiseIf (by decide))

theorem State.lagr0Check_recoverable {s : State} {a b : Slot} : Recoverable (s.lagr0Check a b) :=
  (recoverable_raiseIf (by decide)).orElse <|
    (recoverable_raiseIf (by decide)).orElse (recoverable_raiseAt (by decide))

theorem State.combineCheck_recoverable {s : State} {d a : Slot} {k : Nat} : Recoverable (s.combineCheck d a k) :=
  (recoverable_raiseIf (by decide)).orElse <| (recoverable_raiseIf (by decide)).orElse <|
    (recoverable_raiseIf (by decide)).orElse <| (recoverable_raiseAt (by decide)).orElse <|
      (recoverable_raiseAt (by decide)).orElse (recoverable_raiseAt (by decide))

section
variable {s t u : State}

theorem Quiet.fatal_finish (hq : Quiet s u) (h : u.finish = .next t) : t.fatal = s.fatal := by
  cases h
  simp [hq.status.fatal]

theorem Quiet.fatal_checked {check : Option (Err × Word32)} {effect : State → State} (hq : Quiet s (effect s))
    (hc : Recoverable check) (h : s.checked check effect = .next t) : t.fatal = s.fatal := by
  cases check with
  | none => exact hq.fatal_finish h
  | some e =>
    cases h
    simp [hc e rfl]

/-- Every command leaves `FATAL` as it was, but GFDIV with a zero denominator and GFINV with a zero operand (R141). -/
theorem exec_fatal_cases {i : Instr} (h : exec i s = .next t) : t.fatal = s.fatal ∨
    (∃ d a b, i = .gfdiv d a b ∧ s.e b = 0) ∨ ∃ d a, i = .gfinv d a ∧ s.e a = 0 := by
  cases i with
  | gfdiv d a b =>
    by_cases hb : s.e b = 0
    · exact .inr (.inl ⟨d, a, b, rfl, hb⟩)
    · exact .inl ((quiet_setE ..).fatal_finish ((exec_gfdiv_of_ne_zero d a hb).symm.trans h))
  | gfinv d a =>
    by_cases ha : s.e a = 0
    · exact .inr (.inr ⟨d, a, rfl, ha⟩)
    · exact .inl ((quiet_setE ..).fatal_finish ((exec_gfinv_of_ne_zero d ha).symm.trans h))
  | gfadd | gfmul | gfexp | gflog | peval | ldi => exact .inl ((quiet_setE ..).fatal_finish h)
  | vmul => exact .inl ((quiet_setBuf ..).fatal_finish h)
  | vzero => exact .inl ((quiet_zeroBytes ..).fatal_finish h)
  | vadd =>
    simp only [exec, execVadd] at h
    exact .inl ((quiet_setBuf ..).fatal_checked (recoverable_raiseIf (by decide)) h)
  | pevalv =>
    simp only [exec, execPevalv] at h
    exact .inl ((quiet_setBuf ..).fatal_checked State.pevalvCheck_recoverable h)
  | pshare =>
    simp only [exec, execPshare] at h
    exact .inl ((quiet_setBuf ..).fatal_checked State.pshareCheck_recoverable h)
  | lagr0 =>
    simp only [exec, execLagr0] at h
    exact .inl (((quiet_interpolate ..).trans (quiet_setE ..)).fatal_checked State.lagr0Check_recoverable h)
  | combine =>
    simp only [exec, execCombine] at h
    exact .inl (((quiet_interpolate ..).trans (quiet_setBuf ..)).fatal_checked State.combineCheck_recoverable h)
  | ldb =>
    simp only [exec, execLdb] at h
    exact .inl ((quiet_setE ..).fatal_checked (recoverable_raiseIf (by decide)) h)
  | stb =>
    simp only [exec, execStb] at h
    exact .inl ((quiet_setByte ..).fatal_checked (recoverable_raiseIf (by decide)) h)
  | setlen =>
    simp only [exec, execSetlen] at h
    exact .inl (((quiet_zeroBytes ..).trans (quiet_setLen ..)).fatal_checked (recoverable_raiseIf (by decide)) h)

end

/-- Settles O18: all commands but these two leave `FATAL` as it was, and these two stop the engine at zero. -/
theorem onlyDivideAndInverseAreFatal : Obligations.OnlyDivideAndInverseAreFatal := by
  intro i s t h hs
  constructor
  · intro ht
    exact (exec_fatal_cases h).resolve_left fun heq => absurd (ht.symm.trans (heq.trans hs)) nofun
  · rintro (⟨d, a, b, rfl, hb⟩ | ⟨d, a, rfl, ha⟩)
    · cases h.symm.trans (exec_gfdiv_of_eq_zero d a hb)
      exact (stopped_complete s (err := .divZero) (by decide)).fatal
    · cases h.symm.trans (exec_gfinv_of_eq_zero d ha)
      exact (stopped_complete s (err := .invZero) (by decide)).fatal

end Sys2Proof.Machine
end

section
/-! SUPPORT. Interpolation at 0 as polynomial interpolation (R94, R135, R136): the bytes are the elements of a field, `lagrange0` is the value at 0 of the polynomial through the pairs, and O38, O39 and O40. -/

namespace Sys2Proof.Machine

open Finset Polynomial

/-! ### The bytes as a field (R94) -/

/-- A reading of the bytes as elements of a field of Mathlib: distinct bytes are distinct elements, and `gf_add` and
`gf_mul` over the built tables are its sum and product (R94). -/
structure FieldReading {F : Type} [Field F] (φ : Byte → F) : Prop where
  injective : Function.Injective φ
  add : ∀ a b, φ (gfAdd a b) = φ a + φ b
  mul : ∀ a b, φ (gfMul Tables.built a b) = φ a * φ b

/-- `gf_inv`, with 0 at 0, where Mathlib's inverse of a field is 0 (R93). -/
def invOrZero (a : Byte) : Byte := if ha : a = 0 then 0 else gfInv Tables.built a ha

/-- The operations of R90 to R93 make the bytes a field, by the laws of R94: each byte is its own negative. -/
@[reducible] def fieldOfBytes : Field Byte :=
  @Field.ofMinimalAxioms Byte ⟨gfAdd⟩ ⟨gfMul Tables.built⟩ ⟨id⟩ ⟨invOrZero⟩ ⟨0#8⟩ ⟨1#8⟩
    BitVec.xor_assoc (fun _ => BitVec.zero_xor) (fun _ => BitVec.xor_self) gfMul_assoc (gfMul_comm _)
    (fun a => (gfMul_comm _ _ a).trans (gfMul_one a)) (fun _ ha => (congrArg _ (dif_neg ha)).trans (gfMul_gfInv ha))
    rfl gfMul_gfAdd ⟨0#8, 1#8, by decide⟩

/-- The bytes themselves are such a field, so what Mathlib proves of polynomials over a field holds of `lagrange0`. -/
theorem exists_fieldReading : ∃ (F : Type) (_ : Field F) (φ : Byte → F), FieldReading φ :=
  ⟨Byte, fieldOfBytes, id, @FieldReading.mk _ fieldOfBytes id Function.injective_id (fun _ _ => rfl) fun _ _ => rfl⟩

/-! ### The two polynomials: through given points, and with given coefficients (R120, R135) -/

/-- The polynomial of lowest degree through the points with x-coordinates `xs` and y values `ys` (R135). -/
noncomputable def interpolation {F : Type} [Field F] (φ : Byte → F) (xs ys : List Byte) : F[X] :=
  Lagrange.interpolate (range xs.length) (fun j => φ (xs.getD j 0)) fun j => φ (ys.getD j 0)

/-- The polynomial whose coefficients are the readings of `q`, the constant term first (R120). -/
noncomputable def polynomialOf {F : Type} [Field F] (φ : Byte → F) (q : List Byte) : F[X] :=
  q.foldr (fun c f => f * X + C (φ c)) 0

/-! ### What a reading keeps -/

section
variable {F : Type} [Field F] {φ : Byte → F} (hφ : FieldReading φ)
include hφ

namespace FieldReading

theorem map_zero : φ 0 = 0 := by
  simpa [gfAdd] using hφ.add 0 0

theorem map_ne_zero {b : Byte} (hb : b ≠ 0) : φ b ≠ 0 := hφ.map_zero ▸ hφ.injective.ne hb

theorem map_one : φ 1 = 1 := by
  have hsquare : φ 1 * φ 1 = φ 1 * 1 := by rw [← hφ.mul, mul_one]; exact congrArg φ (gfMul_one 1)
  exact mul_left_cancel₀ (hφ.map_ne_zero (by decide)) hsquare

/-- Each byte is its own negative (R90). -/
theorem neg_eq (a : Byte) : -φ a = φ a := by
  refine neg_eq_of_add_eq_zero_left ?_
  rw [← hφ.add, ← hφ.map_zero]
  exact congrArg φ BitVec.xor_self

theorem map_div (a : Byte) {b : Byte} (hb : b ≠ 0) : φ (gfDiv Tables.built a b hb) = φ a / φ b := by
  rw [eq_div_iff (hφ.map_ne_zero hb), ← hφ.mul, gfDiv_eq_gfMul_gfInv, gfMul_assoc, gfMul_comm _ (gfInv ..), gfMul_gfInv]
  exact congrArg φ (gfMul_one a)

/-! ### `lagrange0` is the value at 0 of Mathlib's interpolation polynomial (R135) -/

/-- A running `gf_add` from 0x00 is a sum. -/
theorem map_foldl_gfAdd (f : ℕ → Byte) (n : ℕ) :
    φ ((List.range n).foldl (fun r i => gfAdd r (f i)) 0x00) = ∑ i ∈ range n, φ (f i) := by
  induction n with
  | zero => exact hφ.map_zero
  | succ n ih => rw [List.range_succ, List.foldl_concat, hφ.add, ih, sum_range_succ]

/-- A running product from 0x01 is a product, if each step multiplies by `g`. -/
theorem map_foldl_range {f : Byte → ℕ → Byte} {g : ℕ → F} {n : ℕ} (h : ∀ acc j, j < n → φ (f acc j) = φ acc * g j) :
    φ ((List.range n).foldl f 0x01) = ∏ j ∈ range n, g j := by
  induction n with
  | zero => exact hφ.map_one
  | succ n ih =>
    rw [List.range_succ, List.foldl_concat, h _ _ n.lt_succ_self, ih fun acc j hj => h acc j (hj.trans n.lt_succ_self),
      prod_range_succ]

/-- A factor of a basis value is the value at 0 of the factor of the basis polynomial (R135). -/
theorem map_basisFactor {x y : Byte} (h : x ≠ y) (acc : Byte) :
    φ (basisFactor Tables.built x y acc) = φ acc * (Lagrange.basisDivisor (φ x) (φ y)).eval 0 := by
  have hne : gfAdd x y ≠ 0 := fun h0 => h (BitVec.xor_eq_zero_iff.mp h0)
  have hsub : φ x - φ y = φ x + φ y := by rw [sub_eq_add_neg, hφ.neg_eq]
  rw [basisFactor, dif_neg hne, hφ.mul, hφ.map_div, hφ.add, Lagrange.basisDivisor, hsub, div_eq_inv_mul]
  simp only [eval_mul, eval_C, eval_sub, eval_X, zero_sub, hφ.neg_eq]

section
variable {xs : List Byte} (hxs : xs.Nodup)
include hxs

theorem map_basisAt {i : ℕ} (hi : i < xs.length) :
    φ (basisAt Tables.built xs i) = (Lagrange.basis (range xs.length) (fun j => φ (xs.getD j 0)) i).eval 0 := by
  rw [Lagrange.basis, eval_prod, ← filter_ne', prod_filter, basisAt]
  refine hφ.map_foldl_range fun acc j hj => ?_
  by_cases hji : j = i
  · simp [hji]
  · have hne : xs.getD i 0 ≠ xs.getD j 0 := by
      rw [List.getD_eq_getElem _ _ hi, List.getD_eq_getElem _ _ hj]
      exact fun h => hji (hxs.getElem_inj_iff.mp h).symm
    rw [if_neg hji, if_pos hji, hφ.map_basisFactor hne]

theorem map_lagrange0 (ys : List Byte) : φ (lagrange0 Tables.built xs ys) = (interpolation φ xs ys).eval 0 := by
  rw [lagrange0, hφ.map_foldl_gfAdd, interpolation, Lagrange.interpolate_apply, eval_finsetSum]
  refine sum_congr rfl fun i hi => ?_
  rw [hφ.mul, hφ.map_basisAt hxs (mem_range.mp hi), eval_mul, eval_C]

/-! ### The interpolation polynomial is the one polynomial of its degree through the points (R136) -/

theorem injOn_getD : Set.InjOn (fun j => φ (xs.getD j 0)) (range xs.length : Finset ℕ) := by
  intro i hi j hj h
  rw [mem_coe, mem_range] at hi hj
  have h := hφ.injective h
  rwa [List.getD_eq_getElem _ _ hi, List.getD_eq_getElem _ _ hj, hxs.getElem_inj_iff] at h

theorem degree_interpolation_lt (ys : List Byte) : (interpolation φ xs ys).degree < xs.length :=
  (Lagrange.degree_interpolate_lt _ (hφ.injOn_getD hxs)).trans_eq (congrArg _ (card_range _))

theorem eval_interpolation (ys : List Byte) {j : ℕ} (hj : j < xs.length) :
    (interpolation φ xs ys).eval (φ (xs.getD j 0)) = φ (ys.getD j 0) :=
  Lagrange.eval_interpolate_at_node _ (hφ.injOn_getD hxs) (mem_range.mpr hj)

theorem eq_interpolation {ys : List Byte} {f : F[X]} (hdeg : f.degree < xs.length)
    (hf : ∀ j < xs.length, f.eval (φ (xs.getD j 0)) = φ (ys.getD j 0)) : f = interpolation φ xs ys :=
  Lagrange.eq_interpolate_of_eval_eq _ (hφ.injOn_getD hxs) (by simpa using hdeg) fun j hj => hf j (mem_range.mp hj)

end

/-- A permutation of the pairs is a set of points of the same polynomial (R136 (a)). -/
theorem interpolation_perm {pairs pairs' : List (Byte × Byte)} (hperm : pairs.Perm pairs')
    (hx : (pairs.map Prod.fst).Nodup) :
    interpolation φ (pairs.map Prod.fst) (pairs.map Prod.snd) =
      interpolation φ (pairs'.map Prod.fst) (pairs'.map Prod.snd) := by
  refine hφ.eq_interpolation ((hperm.map Prod.fst).nodup_iff.mp hx) ?_ fun j hj => ?_
  · simpa [hperm.length_eq] using hφ.degree_interpolation_lt hx (pairs.map Prod.snd)
  · have hj : j < pairs'.length := by simpa using hj
    obtain ⟨i, hi, heq⟩ := List.getElem_of_mem (hperm.mem_iff.mpr (List.getElem_mem hj))
    simpa [hi, hj, heq] using hφ.eval_interpolation hx (pairs.map Prod.snd) (j := i) (by simpa using hi)

/-! ### The polynomial with given coefficients (R120) -/

theorem eval_polynomialOf (q : List Byte) (x : Byte) :
    (polynomialOf φ q).eval (φ x) = φ (horner Tables.built q x) := by
  induction q with
  | nil => exact eval_zero.trans hφ.map_zero.symm
  | cons c q ih =>
    calc (polynomialOf φ q * X + C (φ c)).eval (φ x)
        = φ (horner Tables.built q x) * φ x + φ c := by simp [ih]
      _ = φ (horner Tables.built (c :: q) x) := by rw [horner_cons, hφ.add, hφ.mul]

/-- The value at 0 of a polynomial is its constant term. -/
theorem eval_polynomialOf_zero (q : List Byte) : (polynomialOf φ q).eval 0 = φ (q.headD 0) := by
  rw [← hφ.map_zero, hφ.eval_polynomialOf, horner_at_zero]

end FieldReading
end

theorem degree_polynomialOf_lt {F : Type} [Field F] (φ : Byte → F) (q : List Byte) :
    (polynomialOf φ q).degree < q.length := by
  rw [degree_lt_iff_coeff_zero]
  induction q with
  | nil => exact fun _ _ => coeff_zero _
  | cons c q ih =>
    rintro (_ | m) hm
    · exact absurd hm (Nat.not_succ_le_zero _)
    · simpa [polynomialOf] using ih m (Nat.le_of_succ_le_succ hm)

/-! ### The statements (R136) -/

/-- Settles O38: the polynomial through the pairs does not depend on their order. -/
theorem lagrangeIgnoresTheOrderOfPairs : Obligations.LagrangeIgnoresTheOrderOfPairs := by
  intro pairs pairs' hperm hx
  obtain ⟨F, _, φ, hφ⟩ := exists_fieldReading
  apply hφ.injective
  rw [hφ.map_lagrange0 hx, hφ.map_lagrange0 ((hperm.map Prod.fst).nodup_iff.mp hx), hφ.interpolation_perm hperm hx]

/-- Settles O39: the polynomial with coefficients `q` is the one through the pairs, and its value at 0 is its constant
term. -/
theorem lagrangeRecoversTheConstantTerm : Obligations.LagrangeRecoversTheConstantTerm := by
  intro xs q hxs hq
  obtain ⟨F, _, φ, hφ⟩ := exists_fieldReading
  have hdeg : (polynomialOf φ q).degree < xs.length := (degree_polynomialOf_lt φ q).trans_le (by exact_mod_cast hq)
  have hpoly : polynomialOf φ q = interpolation φ xs (xs.map (horner Tables.built q)) :=
    hφ.eq_interpolation hxs hdeg fun j hj => by simp [hφ.eval_polynomialOf, hj]
  apply hφ.injective
  rw [hφ.map_lagrange0 hxs, ← hpoly, hφ.eval_polynomialOf_zero]

/-- Settles O40: at the x-coordinate of a pair the polynomial has the pair's y value. -/
theorem lagrangeAtAZeroCoordinate : Obligations.LagrangeAtAZeroCoordinate := by
  intro xs ys i hxs _ hi hzero
  obtain ⟨F, _, φ, hφ⟩ := exists_fieldReading
  have hx : xs.getD i 0 = 0 := by rwa [List.getD_eq_getElem _ _ hi] at hzero ⊢
  have hvalue := hφ.eval_interpolation hxs ys hi
  rw [hx, hφ.map_zero] at hvalue
  exact hφ.injective ((hφ.map_lagrange0 hxs ys).trans hvalue)

end Sys2Proof.Machine
end

section
/-! SUPPORT. The Interpolator's commands (R138 to R141): their checks in order, what they compute, and O41, O42 and O43. -/

namespace Sys2Proof.Machine

/-! ### The lowest index that repeats an earlier byte (R138, R139) -/

theorem contains_take_map_range {f : Nat → Byte} {n j : Nat} (hj : j < n) :
    (((List.range n).map f).take j).contains (((List.range n).map f).getD j 0) = true ↔ ∃ i, i < j ∧ f i = f j := by
  simp [← List.map_take, List.take_range, Nat.min_eq_left hj.le, List.getD, hj]

/-- The duplicate reported is at the lowest index whose byte stands at a lower one too. -/
theorem firstRepeat_map_range {f : Nat → Byte} {n i j : Nat} (hij : i < j) (hj : j < n) (heq : f i = f j)
    (hlow : ∀ i' j', i' < j' → j' < j → f i' ≠ f j') : firstRepeat ((List.range n).map f) = some j := by
  rw [firstRepeat, find?_range_eq_some, List.length_map, List.length_range]
  refine ⟨hj, (contains_take_map_range hj).mpr ⟨i, hij, heq⟩, fun j' hj' => ?_⟩
  rw [← Bool.not_eq_true, contains_take_map_range (hj'.trans hj)]
  rintro ⟨i', hi', heq'⟩
  exact hlow i' j' hi' hj' heq'

/-! ### Between commands the interpolator leaves no trace (R32, R140) -/

/-- Of the whole state the interpolator writes the scratch alone, and what was zero is zero again. -/
theorem State.interpolate_snd_of_clear {s : State} {q : List Byte} {rows : List (List Byte)} (hq : q.length ≤ 256)
    (hrows : ∀ p ∈ rows, p.length = q.length) (hx : s.xs = Scratch.clear) (hy : s.ys = Scratch.clear) :
    (s.interpolate q rows).2 = s := by
  obtain ⟨hx', hy'⟩ := s.interpolate_clear hq hrows hx hy
  exact congrArg₂ (fun x y => { s with xs := x, ys := y }) (hx'.trans hx.symm) (hy'.trans hy.symm)

/-! ### LAGR0 (R138) -/

theorem exec_lagr0_reports (d : Reg) {a b : Slot} {s : State} {err : Err} {v : Word32}
    (h : s.lagr0Check a b = some (err, v)) (herr : isFatalCode err.code = false) :
    ∃ t, exec (.lagr0 d a b) s = .next t ∧ Reported s t err v := by
  simp only [exec, execLagr0]
  exact State.checked_reports _ h herr

theorem State.lagr0Check_of_few {s : State} {a : Slot} (b : Slot) (h : s.len a < 2) :
    s.lagr0Check a b = some (.tooFew, info (s.len a)) := by
  rw [State.lagr0Check, raiseIf_orElse, if_pos (by simpa using h)]

section
variable {s : State} {a b : Slot} (hmany : 2 ≤ s.len a)
include hmany

theorem State.lagr0Check_of_many : s.lagr0Check a b =
    (raiseIf (s.len b != s.len a) .lenMismatch (info b.val) <|> raiseAt (firstRepeat (s.buf a)) .dupX info) := by
  rw [State.lagr0Check, raiseIf_orElse, if_neg (by rwa [decide_eq_true_iff, Nat.not_lt])]

theorem State.lagr0Check_of_mismatch (h : s.len b ≠ s.len a) :
    s.lagr0Check a b = some (.lenMismatch, info b.val) := by
  rw [State.lagr0Check_of_many hmany, raiseIf_orElse, if_pos (by simpa using h)]

/-- On enough pairs of equal number the duplicates decide, last of all. -/
theorem State.lagr0Check_of_pairs (h : s.len b = s.len a) :
    s.lagr0Check a b = raiseAt (firstRepeat (s.buf a)) .dupX info := by
  rw [State.lagr0Check_of_many hmany, raiseIf_orElse, if_neg (by simp [h])]

theorem State.lagr0Check_of_repeat {j : Nat} (h : s.len b = s.len a) (hj : firstRepeat (s.buf a) = some j) :
    s.lagr0Check a b = some (.dupX, info j) := by
  rw [State.lagr0Check_of_pairs hmany h, hj]
  rfl

theorem State.lagr0Check_of_nodup (h : s.len b = s.len a) (hx : (s.buf a).Nodup) : s.lagr0Check a b = none := by
  rw [State.lagr0Check_of_pairs hmany h, firstRepeat_eq_none.mpr hx]
  rfl

end

/-- Where LAGR0's checks pass, the destination takes `lagrange0` of the two buffers. -/
theorem exec_lagr0_of_legal (d : Reg) {a b : Slot} {s : State} (hx : s.xs = Scratch.clear) (hy : s.ys = Scratch.clear)
    (h : s.lagr0Check a b = none) :
    exec (.lagr0 d a b) s = .next ((s.setE d (lagrange0 s.tables (s.buf a) (s.buf b))).complete 0 0) := by
  obtain ⟨hq, hrows⟩ := State.lagr0Check_fits h
  simp only [exec, execLagr0]
  rw [h, State.checked_none, State.interpolate_snd_of_clear hq hrows hx hy, State.interpolate_fst s hq hrows]
  rfl

/-- Settles O41: the checks in their order decide the case. -/
theorem lagr0ResultAndRejections : Obligations.Lagr0ResultAndRejections := by
  intro d a b s
  refine ⟨encodeThenDecodeGivesTheCommand (.lagr0 d a b) rfl, fun hx hy hmany hlen hnodup => ?_,
    fun hfew => exec_lagr0_reports d (State.lagr0Check_of_few b hfew) (by decide),
    fun hmany hlen => exec_lagr0_reports d (State.lagr0Check_of_mismatch hmany hlen) (by decide),
    fun i j hmany hlen hij hj heq hlow => ?_⟩
  · have hcheck := State.lagr0Check_of_nodup hmany hlen hnodup
    exact ⟨_, exec_lagr0_of_legal d hx hy hcheck, e_complete_setE s d _, onlyReg_complete_setE s d _,
      succeeded_complete_setE s d _⟩
  · have hcheck := State.lagr0Check_of_repeat hmany hlen (firstRepeat_map_range hij hj heq hlow)
    exact exec_lagr0_reports d hcheck (by decide)

/-! ### COMBINE: the checks (R139) -/

theorem exec_combine_reports {d a : Slot} {k : Nat} {s : State} {err : Err} {v : Word32}
    (h : s.combineCheck d a k = some (err, v)) (herr : isFatalCode err.code = false) :
    ∃ t, exec (.combine d a k) s = .next t ∧ Reported s t err v := by
  simp only [exec, execCombine]
  exact State.checked_reports _ h herr

/-- A search for an index that finds none leaves the outcome to the checks after it. -/
theorem raiseAt_none_orElse {err : Err} {v : Nat → Word32} {rest : Option (Err × Word32)} :
    (raiseAt none err v <|> rest) = rest := rfl

theorem raiseAt_some_orElse {j : Nat} {err : Err} {v : Nat → Word32} {rest : Option (Err × Word32)} :
    (raiseAt (some j) err v <|> rest) = some (err, v j) := rfl

theorem State.firstShort_eq_none {s : State} {a : Slot} {k : Nat} :
    s.firstShort a k = none ↔ ∀ j, j < k → 2 ≤ s.len (slotAt a j) := by
  simp only [State.firstShort, find?_range_eq_none, decide_eq_false_iff_not, Nat.not_lt]

theorem State.firstShort_eq_some {s : State} {a : Slot} {k j : Nat} :
    s.firstShort a k = some j ↔ j < k ∧ s.len (slotAt a j) < 2 ∧ ∀ i, i < j → 2 ≤ s.len (slotAt a i) := by
  simp only [State.firstShort, find?_range_eq_some, decide_eq_true_iff, decide_eq_false_iff_not, Nat.not_lt]

/-- The checks that look at the shares, after those of the numbers. -/
def State.sharesCheck (s : State) (a : Slot) (k : Nat) : Option (Err × Word32) :=
  raiseAt (s.firstShort a k) .short (fun j => info (a.val + j)) <|>
  raiseAt (s.firstMismatch a k) .lenMismatch (fun j => info (a.val + j)) <|>
  raiseAt (firstRepeat (s.column a k 0)) .dupX (fun j => info (a.val + j))

section
variable {s : State} {d a : Slot} {k : Nat}

theorem State.combineCheck_of_past (d : Slot) (h : a.val + k > 256) : s.combineCheck d a k = some (.range, info k) := by
  rw [State.combineCheck, raiseIf_orElse, if_pos (by simpa [pastLastSlot] using h)]

section
variable (hlast : a.val + k ≤ 256)
include hlast

theorem State.combineCheck_of_alias (hin : 1 ≤ k ∧ a.val ≤ d.val ∧ d.val ≤ a.val + k - 1) :
    s.combineCheck d a k = some (.aliased, info d.val) := by
  rw [State.combineCheck, raiseIf_orElse, if_neg (by simpa [pastLastSlot] using hlast), raiseIf_orElse,
    if_pos (inBlock_iff.mpr hin)]

theorem State.combineCheck_of_outside (hout : ¬ (1 ≤ k ∧ a.val ≤ d.val ∧ d.val ≤ a.val + k - 1)) :
    s.combineCheck d a k = if k < 2 then some (.tooFew, info k) else s.sharesCheck a k := by
  rw [State.combineCheck, raiseIf_orElse, if_neg (by simpa [pastLastSlot] using hlast), raiseIf_orElse,
    if_neg (mt inBlock_iff.mp hout), raiseIf_orElse, State.sharesCheck]
  simp only [decide_eq_true_eq]

end

theorem State.sharesCheck_of_short {j : Nat} (hj : j < k) (hshort : s.len (slotAt a j) < 2)
    (hlow : ∀ i, i < j → 2 ≤ s.len (slotAt a i)) : s.sharesCheck a k = some (.short, info (a.val + j)) := by
  rw [State.sharesCheck, State.firstShort_eq_some.mpr ⟨hj, hshort, hlow⟩, raiseAt_some_orElse]

theorem State.sharesCheck_of_mismatch {j : Nat} (hlong : ∀ i, i < k → 2 ≤ s.len (slotAt a i)) (hfirst : 1 ≤ j)
    (hj : j < k) (hne : s.len (slotAt a j) ≠ s.len a) (hlow : ∀ i, 1 ≤ i → i < j → s.len (slotAt a i) = s.len a) :
    s.sharesCheck a k = some (.lenMismatch, info (a.val + j)) := by
  rw [State.sharesCheck, State.firstShort_eq_none.mpr hlong, raiseAt_none_orElse,
    State.firstMismatch_eq_some hfirst hj hne hlow, raiseAt_some_orElse]

/-- On long enough shares of equal length the duplicates decide, last of all. -/
theorem State.sharesCheck_of_equal (hlong : 2 ≤ s.len a) (hlen : ∀ j, j < k → s.len (slotAt a j) = s.len a) :
    s.sharesCheck a k = raiseAt (firstRepeat (s.column a k 0)) .dupX fun j => info (a.val + j) := by
  rw [State.sharesCheck, State.firstShort_eq_none.mpr fun j hj => hlong.trans_eq (hlen j hj).symm, raiseAt_none_orElse,
    State.firstMismatch_eq_none.mpr hlen, raiseAt_none_orElse]

theorem State.sharesCheck_of_repeat {j : Nat} (hlong : 2 ≤ s.len a) (hlen : ∀ j, j < k → s.len (slotAt a j) = s.len a)
    (h : firstRepeat (s.column a k 0) = some j) : s.sharesCheck a k = some (.dupX, info (a.val + j)) := by
  rw [State.sharesCheck_of_equal hlong hlen, h]
  rfl

theorem State.combineCheck_of_shares (hk : 2 ≤ k) (hlast : a.val + k ≤ 256)
    (hout : ¬ (a.val ≤ d.val ∧ d.val ≤ a.val + k - 1)) : s.combineCheck d a k = s.sharesCheck a k := by
  rw [State.combineCheck_of_outside hlast fun hin => hout hin.2, if_neg (Nat.not_lt.mpr hk)]

/-- A legal set of shares (R139). -/
theorem State.combineCheck_of_legal (hk : 2 ≤ k) (hlast : a.val + k ≤ 256)
    (hout : ¬ (a.val ≤ d.val ∧ d.val ≤ a.val + k - 1)) (hlong : 2 ≤ s.len a)
    (hlen : ∀ j, j < k → s.len (slotAt a j) = s.len a) (hx : (s.column a k 0).Nodup) : s.combineCheck d a k = none := by
  rw [State.combineCheck_of_shares hk hlast hout, State.sharesCheck_of_equal hlong hlen, firstRepeat_eq_none.mpr hx]
  rfl

end

/-! ### COMBINE: the secret (R139) -/

/-- The interpolation of the shares' bytes at each payload position. -/
def State.combined (s : State) (a : Slot) (k : Nat) : List Byte :=
  (s.payload a k).map (lagrange0 s.tables (s.column a k 0))

@[simp] theorem State.length_combined (s : State) (a : Slot) (k : Nat) : (s.combined a k).length = s.len a - 1 := by
  simp [State.combined, State.payload]

theorem State.getD_combined {s : State} {a : Slot} (k : Nat) {p : Nat} (hp : p < s.len a - 1) :
    (s.combined a k).getD p 0 = lagrange0 s.tables (s.column a k 0) (s.column a k (p + 1)) := by
  simp [State.combined, State.payload, List.getD, hp]

/-- Where COMBINE's checks pass, the interpolator loads rows of equal length that fit its scratch. -/
theorem State.combineCheck_fits_scratch {s : State} {d a : Slot} {k : Nat} (h : s.combineCheck d a k = none) :
    (s.column a k 0).length ≤ 256 ∧ ∀ p ∈ s.payload a k, p.length = (s.column a k 0).length := by
  rw [State.length_column]
  exact ⟨State.combineCheck_fits h, fun p hp => State.length_of_mem_payload hp⟩

/-- Where COMBINE's checks pass, the destination takes the combined bytes, whatever the scratch held. -/
theorem exec_combine_of_legal {d a : Slot} {k : Nat} {s : State} (h : s.combineCheck d a k = none) :
    exec (.combine d a k) s =
      .next (((s.interpolate (s.column a k 0) (s.payload a k)).2.setBuf d (s.combined a k)).complete 0 0) := by
  obtain ⟨hq, hrows⟩ := State.combineCheck_fits_scratch h
  simp only [exec, execCombine]
  rw [h, State.checked_none, State.interpolate_fst s hq hrows, State.combined]

/-- The same where the scratch is zero: nothing else has changed. -/
theorem exec_combine_of_clear {d a : Slot} {k : Nat} {s : State} (hx : s.xs = Scratch.clear) (hy : s.ys = Scratch.clear)
    (h : s.combineCheck d a k = none) :
    exec (.combine d a k) s = .next ((s.setBuf d (s.combined a k)).complete 0 0) := by
  obtain ⟨hq, hrows⟩ := State.combineCheck_fits_scratch h
  rw [exec_combine_of_legal h, State.interpolate_snd_of_clear hq hrows hx hy]

/-- Settles O42: the checks in their order decide the case, and on a legal set of shares the destination takes the
combined bytes. -/
theorem combineResultAndRejections : Obligations.CombineResultAndRejections := by
  intro d a k s
  refine ⟨fun hfits => encodeThenDecodeGivesTheCommand (.combine d a k) (decide_eq_true hfits),
    fun hx hy hk hlast hout hlong hlen hnodup => ?_,
    fun hpast => exec_combine_reports (State.combineCheck_of_past d hpast) (by decide),
    fun hlast hk hfirst hd => exec_combine_reports (State.combineCheck_of_alias hlast ⟨hk, hfirst, hd⟩) (by decide),
    fun hlast hout hfew =>
      exec_combine_reports ((State.combineCheck_of_outside hlast hout).trans (if_pos hfew)) (by decide),
    fun j hlast hout hk hj hshort hlow => ?_, fun j hlast hout hk hlong hfirst hj hne hlow => ?_,
    fun i j hlast hout hk hlong hlen hij hj heq hlow => ?_⟩
  · refine ⟨_, exec_combine_of_clear hx hy (State.combineCheck_of_legal hk hlast hout hlong hlen hnodup),
      (State.len_setBuf_self ..).trans (s.length_combined a k), fun p hp hlt => ?_, complete_setBuf_frame s d _⟩
    have hpos : p - 1 < s.len a - 1 := by omega
    calc ((s.setBuf d (s.combined a k)).complete 0 0).byte d (p - 1)
        = (s.combined a k).getD (p - 1) 0 := s.byte_setBuf_lt d _ (by rwa [State.length_combined])
      _ = lagrange0 s.tables (s.column a k 0) (s.column a k (p - 1 + 1)) := State.getD_combined k hpos
      _ = lagrange0 s.tables (s.column a k 0) (s.column a k p) := by rw [Nat.sub_add_cancel hp]
  · have hcheck := State.sharesCheck_of_short hj hshort hlow
    exact exec_combine_reports ((State.combineCheck_of_shares hk hlast hout).trans hcheck) (by decide)
  · have hcheck := State.sharesCheck_of_mismatch hlong hfirst hj hne hlow
    exact exec_combine_reports ((State.combineCheck_of_shares hk hlast hout).trans hcheck) (by decide)
  · have hcheck := State.sharesCheck_of_repeat hlong hlen (firstRepeat_map_range hij hj heq hlow)
    exact exec_combine_reports ((State.combineCheck_of_shares hk hlast hout).trans hcheck) (by decide)

/-- Settles O43: at each payload position the shares' bytes are values of one polynomial, whose constant term
`lagrange0` recovers. -/
theorem combineRecoversTheSecret : Obligations.CombineRecoversTheSecret := by
  intro d a k s coeffs hbuilt hk hlast hout hlong hlen hnodup hpoly
  refine ⟨_, exec_combine_of_legal (State.combineCheck_of_legal hk hlast hout hlong hlen hnodup), ?_⟩
  rw [State.buf_complete, State.buf_setBuf_self, State.combined, State.payload, List.map_map, hbuilt]
  refine List.map_congr_left fun p hp => ?_
  have hp : p + 1 < s.len a := by rw [List.mem_range] at hp; omega
  obtain ⟨hdeg, hvalues⟩ := hpoly p hp
  have hcolumn : s.column a k (p + 1) = (s.column a k 0).map (horner Tables.built (coeffs p)) := by
    simpa [State.column] using hvalues
  rw [Function.comp_apply, hcolumn]
  exact lagrangeRecoversTheConstantTerm _ _ hnodup (by rwa [State.length_column])

end Sys2Proof.Machine
end

section
/-! SUPPORT. Data movement (R155 to R158): how a command with one range check ends, what STB and SETLEN do to a slot, and O44 to O47. -/

namespace Sys2Proof.Machine

/-! ### How these commands end -/

section
variable {s : State} {bad : Prop} [Decidable bad] {v : Word32}

/-- A command whose one check passes performs its effect (R192). -/
theorem State.checked_of_not (err : Err) (effect : State → State) (h : ¬ bad) :
    s.checked (raiseIf (decide bad) err v) effect = .next ((effect s).complete 0 0) := by
  rw [decide_eq_false h, raiseIf_false, State.checked_none]

/-- A command whose one check is of a range and fails reports `ERR_RANGE` (R192). -/
theorem State.checked_range_reports (effect : State → State) (h : bad) :
    ∃ t, s.checked (raiseIf (decide bad) .range v) effect = .next t ∧ Reported s t .range v :=
  State.checked_reports effect (by rw [decide_eq_true h, raiseIf_true]) (by decide)

end

theorem exec_ldb_of_lt (d : Reg) {a : Slot} {off : Nat} {s : State} (h : off < s.len a) :
    exec (.ldb d a off) s = .next ((s.setE d (s.byte a off)).complete 0 0) :=
  State.checked_of_not .range (fun s => s.setE d (s.byte a off)) (Nat.not_le.mpr h)

theorem exec_stb_of_lt (r : Reg) {a : Slot} {off : Nat} {s : State} (h : off < s.len a) :
    exec (.stb r a off) s = .next ((s.setByte a off (s.e r)).complete 0 0) :=
  State.checked_of_not .range (fun s => s.setByte a off (s.e r)) (Nat.not_le.mpr h)

/-! ### STB writes one byte (R157) -/

theorem State.byte_setByte_self (s : State) (a : Slot) (off : Nat) (v : Byte) : (s.setByte a off v).byte a off = v := by
  simp [State.byte_setByte]

theorem State.byte_setByte_ne (s : State) (a : Slot) {off i : Nat} (v : Byte) (h : i ≠ off) :
    (s.setByte a off v).byte a i = s.byte a i := by simp [State.byte_setByte, h]

theorem outsideSlot_setByte (s : State) (a : Slot) (off : Nat) (v : Byte) : OutsideSlot s (s.setByte a off v) a where
  regs _ := rfl
  lens _ _ := rfl
  bytes b i hb := by simp [State.byte_setByte, hb]
  xs := rfl
  ys := rfl
  rest := (quiet_setByte s a off v).rest

/-! ### SETLEN wipes what it cuts off (R158) -/

/-- SETLEN's effect: the bytes cut off are wiped, then the length is written. -/
def State.resize (s : State) (a : Slot) (n : Nat) : State := (s.zeroBytes a n (s.len a)).setLen a n

theorem exec_setlen_of_le (a : Slot) {n : Nat} {s : State} (h : n ≤ s.maxLen.toNat) :
    exec (.setlen a n) s = .next ((s.resize a n).complete 0 0) :=
  State.checked_of_not .range (fun s => s.resize a n) (Nat.not_lt.mpr h)

theorem quiet_resize (s : State) (a : Slot) (n : Nat) : Quiet s (s.resize a n) :=
  (quiet_zeroBytes ..).trans (quiet_setLen ..)

theorem State.len_resize (s : State) (a : Slot) (n : Nat) (b : Slot) :
    (s.resize a n).len b = if b = a then n else s.len b := State.len_setLen ..

@[simp] theorem State.len_resize_self (s : State) (a : Slot) (n : Nat) : (s.resize a n).len a = n := by
  simp [State.len_resize]

theorem State.byte_resize (s : State) (a : Slot) (n : Nat) (b : Slot) (i : Nat) :
    (s.resize a n).byte b i = if b = a ∧ n ≤ i ∧ i < s.len a then 0 else s.byte b i := State.byte_zeroBytes ..

theorem State.byte_resize_cut {s : State} {a : Slot} {n i : Nat} (hn : n ≤ i) (hi : i < s.len a) :
    (s.resize a n).byte a i = 0 := by rw [State.byte_resize, if_pos ⟨rfl, hn, hi⟩]

theorem State.byte_resize_kept {s : State} {a : Slot} {n i : Nat} (h : i < n ∨ s.len a ≤ i) :
    (s.resize a n).byte a i = s.byte a i := by rw [State.byte_resize, if_neg (by omega)]

theorem outsideSlot_resize (s : State) (a : Slot) (n : Nat) : OutsideSlot s (s.resize a n) a where
  regs _ := rfl
  lens b hb := by simp [State.len_resize, hb]
  bytes b i hb := by simp [State.byte_resize, hb]
  xs := rfl
  ys := rfl
  rest := (quiet_resize s a n).rest

/-- A slot that grows keeps its bytes, and those it gains are the zero tail (R26). -/
theorem State.buf_resize_of_grow {s : State} {a : Slot} {n : Nat} (hs : s.Inv) (h : s.len a ≤ n) :
    (s.resize a n).buf a = s.buf a ++ List.replicate (n - s.len a) 0 := by
  have hkept : (s.resize a n).byte a = s.byte a := funext fun i => State.byte_resize_kept (by omega)
  have htail : (s.byte a ∘ fun i => s.len a + i) = fun _ => 0 :=
    funext fun i => hs.byte_eq_zero (Nat.le_add_right ..)
  calc (s.resize a n).buf a
      = (List.range (s.len a + (n - s.len a))).map (s.byte a) := by
        rw [State.buf, State.len_resize_self, hkept, Nat.add_sub_cancel' h]
    _ = s.buf a ++ (List.range (n - s.len a)).map (s.byte a ∘ fun i => s.len a + i) := by
        rw [List.range_add, List.map_append, List.map_map, State.buf]
    _ = s.buf a ++ List.replicate (n - s.len a) 0 := by rw [htail, List.map_const', List.length_range]

/-! ### The commands -/

/-- Settles O44: no check stands before the effect. -/
theorem ldiResultAndFrame : Obligations.LdiResultAndFrame := fun d imm s =>
  ⟨encodeThenDecodeGivesTheCommand (.ldi d imm) rfl, _, State.finish_eq _, e_complete_setE s d _,
    onlyReg_complete_setE s d _, succeeded_complete_setE s d _⟩

/-- Settles O45, by cases on the offset. -/
theorem ldbResultAndRejection : Obligations.LdbResultAndRejection := fun d a off s =>
  ⟨fun hfits => encodeThenDecodeGivesTheCommand (.ldb d a off) (decide_eq_true hfits),
    fun hlt => ⟨_, exec_ldb_of_lt d hlt, e_complete_setE s d _, onlyReg_complete_setE s d _,
      succeeded_complete_setE s d _⟩,
    fun hge => State.checked_range_reports (fun s => s.setE d (s.byte a off)) hge⟩

/-- Settles O46, by cases on the offset. -/
theorem stbResultAndRejection : Obligations.StbResultAndRejection := fun r a off s =>
  ⟨fun hfits => encodeThenDecodeGivesTheCommand (.stb r a off) (decide_eq_true hfits),
    fun hlt => ⟨_, exec_stb_of_lt r hlt, s.byte_setByte_self a off _, rfl, fun _ hi => s.byte_setByte_ne a _ hi,
      (outsideSlot_setByte s a off _).complete 0 0, succeeded_complete (quiet_setByte s a off _).status⟩,
    fun hge => State.checked_range_reports (fun s => s.setByte a off (s.e r)) hge⟩

/-- Settles O47, by cases on the length: SETLEN's effect up to `MAXLEN`, the failed check above it. -/
theorem setlenResultAndRejection : Obligations.SetlenResultAndRejection := fun a len s =>
  ⟨fun hfits => encodeThenDecodeGivesTheCommand (.setlen a len) (decide_eq_true hfits),
    fun hle => ⟨_, exec_setlen_of_le a hle, s.len_resize_self a len, fun _ => State.byte_resize_cut,
      fun _ => State.byte_resize_kept, State.buf_resize_of_grow,
      (outsideSlot_resize s a len).complete 0 0, succeeded_complete (quiet_resize s a len).status⟩,
    fun hgt => State.checked_range_reports (fun s => s.resize a len) hgt⟩

end Sys2Proof.Machine
end

section
/-! SUPPORT. The host's procedures around the engine (R166, R169, R173, R174, R183, R194): the checks of a split, the checksum layer, what a move of the host leaves alone outside one slot whether or not the engine is stopped, and O57 and O58. -/

namespace Sys2Proof.Machine

/-! ### The checks of a split (R166) -/

/-- A check made first finds nothing exactly when it passes and those behind it find nothing. -/
theorem ite_some_eq_none {α : Type} {bad : Prop} [Decidable bad] {found : α} {rest : Option α} :
    (if bad then some found else rest) = none ↔ ¬ bad ∧ rest = none := by
  by_cases h : bad <;> simp [h]

theorem splitCheck_eq_none {maxLen : Word32} {secret : List Byte} {parts threshold : Nat} :
    splitCheck maxLen secret parts threshold = none ↔
      secret ≠ [] ∧ 2 ≤ parts ∧ parts ≤ 255 ∧ 2 ≤ threshold ∧ threshold ≤ parts ∧ secret.length + 1 ≤ maxLen.toNat := by
  simp only [splitCheck, ite_some_eq_none, List.length_eq_zero_iff, not_or, not_lt, gt_iff_lt, and_true, and_assoc, ne_eq]

/-! ### The checksum layer (R173, R174) -/

@[simp] theorem length_le32 (v : Word32) : (le32 v).length = 4 := rfl

/-- Without its last four bytes an extended share is the share (R173). -/
theorem take_addIntegrityCheck (share : List Byte) :
    (addIntegrityCheck share).take ((addIntegrityCheck share).length - 4) = share := by
  simp [addIntegrityCheck]

/-- Validation accepts a share with its own checksum and nothing else (R174). -/
theorem validateIntegrityCheck_eq_ok {extended share : List Byte} :
    validateIntegrityCheck extended = .ok share ↔ extended = addIntegrityCheck share := by
  rw [validateIntegrityCheck]
  constructor
  · intro h
    split at h
    · next heq => cases h; exact heq
    · cases h
  · rintro rfl
    rw [take_addIntegrityCheck, if_pos rfl]

/-- Settles O57: the checks passed are the preconditions, and both halves of the checksum's round trip are the one
equivalence. -/
theorem hostChecksAroundTheEngine : Obligations.HostChecksAroundTheEngine :=
  ⟨fun _ _ _ _ => splitCheck_eq_none, fun _ => validateIntegrityCheck_eq_ok.mpr rfl,
    fun _ _ => validateIntegrityCheck_eq_ok.mp⟩

/-! ### Nothing outside a slot changes, over several moves -/

theorem OutsideSlot.refl (s : State) (d : Slot) : OutsideSlot s s d :=
  ⟨fun _ => rfl, fun _ _ => rfl, fun _ _ _ => rfl, rfl, rfl, (Quiet.refl s).rest⟩

theorem OutsideSlot.trans {s u t : State} {d : Slot} (h : OutsideSlot s u d) (h' : OutsideSlot u t d) : OutsideSlot s t d where
  regs r := (h'.regs r).trans (h.regs r)
  lens b hb := (h'.lens b hb).trans (h.lens b hb)
  bytes b i hb := (h'.bytes b i hb).trans (h.bytes b i hb)
  xs := h'.xs.trans h.xs
  ys := h'.ys.trans h.ys
  rest := ⟨h'.rest.tables.trans h.rest.tables, h'.rest.maxLen.trans h.rest.maxLen, h'.rest.ready.trans h.rest.ready,
    h'.rest.host.trans h.rest.host, h'.rest.freeCount.trans h.rest.freeCount⟩

/-- The frame does not depend on the moves the host has still to make. -/
theorem OutsideSlot.withHost {s t : State} {d : Slot} (h : OutsideSlot s t d) (moves : List HostAction) :
    OutsideSlot (s.withHost moves) (t.withHost moves) d :=
  ⟨h.regs, h.lens, h.bytes, h.xs, h.ys, ⟨h.rest.tables, h.rest.maxLen, h.rest.ready, rfl, h.rest.freeCount⟩⟩

/-! ### The moves of a wipe -/

theorem wipeSlots_singleton (b : Slot) :
    wipeSlots [b] = [issueInstr (.vzero b), issueInstr (.setlen b 0), .port (.writeBuf b [])] := rfl

theorem run_succ_of_step {s t : State} (h : step s = .next t) (n : Nat) :
    Sys2Proof.core.run (n + 1) s = Sys2Proof.core.run n t := by
  simp only [Host.Core.run, show Sys2Proof.core.step s = .next t from h]

section
variable {s : State} {rest : List HostAction}

/-- A stopped engine refuses the word: the host goes on to its next move, and nothing else changes (R192, R194). -/
theorem step_of_refused_issue {w : CmdWord} (hhost : s.host = .issue w :: rest) (hready : s.ready = true)
    (hfatal : s.fatal = true) : step s = .next (s.withHost rest) := by
  simp [step, State.move, State.initialiserMoves_of_ready hready, hhost, State.issue, hfatal]

/-- A ready engine that has not stopped runs the command the host issues (R192). -/
theorem step_of_issueInstr {i : Instr} (hwf : i.wellFormed = true) (hhost : s.host = issueInstr i :: rest)
    (hready : s.ready = true) (hfatal : s.fatal = false) : step s = exec i (s.withHost rest) := by
  rw [step_of_issue hhost hready hfatal, State.accept, encodeThenDecodeGivesTheCommand i hwf]

/-- A command that changes one slot only, issued at a ready engine: run or refused, nothing outside the slot changes. -/
theorem issueInstr_outsideSlot {i : Instr} {d : Slot} (hwf : i.wellFormed = true)
    (hexec : ∀ u, ∃ t, exec i u = .next t ∧ OutsideSlot u t d) (hhost : s.host = issueInstr i :: rest)
    (hready : s.ready = true) : ∃ t, step s = .next t ∧ OutsideSlot (s.withHost rest) t d := by
  cases hfatal : s.fatal with
  | true => exact ⟨_, step_of_refused_issue hhost hready hfatal, .refl _ d⟩
  | false => rw [step_of_issueInstr hwf hhost hready hfatal]; exact hexec _

/-- The empty `HostWriteBuf` is a move the port offers at every `MAXLEN` (R57). -/
theorem step_of_writeBuf_nil {b : Slot} (hhost : s.host = .port (.writeBuf b []) :: rest) (hready : s.ready = true) :
    step s = .next ((s.withHost rest).setBuf b []) := by
  rw [step_of_port hhost (State.initialiserMoves_of_ready hready), State.afterChoice_of_ready hready]
  exact State.portAction_writeBuf b (Nat.zero_le _)

end

theorem exec_vzero_outsideSlot (b : Slot) (u : State) : ∃ t, exec (.vzero b) u = .next t ∧ OutsideSlot u t b :=
  ⟨_, State.finish_eq _, (outsideSlot_zeroBytes u b 0 (u.len b)).complete 0 0⟩

theorem exec_setlen_zero_outsideSlot (b : Slot) (u : State) : ∃ t, exec (.setlen b 0) u = .next t ∧ OutsideSlot u t b :=
  ⟨_, exec_setlen_of_le b (Nat.zero_le _), (outsideSlot_resize u b 0).complete 0 0⟩

/-- Settles O58: the two commands change nothing outside the slot, run or refused, and the empty `HostWriteBuf` behind
them empties it in both cases. -/
theorem wipeEmptiesTheSlotAlsoAfterAFatalStop : Obligations.WipeEmptiesTheSlotAlsoAfterAFatalStop := by
  intro s b hready
  obtain ⟨t₁, hstep₁, hout₁⟩ := issueInstr_outsideSlot (s := s.withHost (wipeSlots [b])) rfl (exec_vzero_outsideSlot b)
    (wipeSlots_singleton b) hready
  have hready₁ : t₁.ready = true := hout₁.rest.ready.trans hready
  obtain ⟨t₂, hstep₂, hout₂⟩ := issueInstr_outsideSlot rfl (exec_setlen_zero_outsideSlot b) hout₁.rest.host hready₁
  have hstep₃ := step_of_writeBuf_nil hout₂.rest.host (hout₂.rest.ready.trans hready₁)
  refine ⟨(t₂.withHost []).setBuf b [], ?_, State.len_setBuf_self .., fun i => ?_, ?_⟩
  · rw [run_succ_of_step hstep₁, run_succ_of_step hstep₂, run_succ_of_step hstep₃]
    rfl
  · exact zeroBehind_setBuf _ b [] i ((State.len_setBuf_self ..).trans_le (Nat.zero_le i))
  · exact ((hout₁.withHost []).trans (hout₂.withHost [])).trans (outsideSlot_setBuf _ b [])

end Sys2Proof.Machine
end

section
/-! SUPPORT. Errors and stops (R192 to R198, R222): what a step does with an issued word in each state of the engine, at the end of the host's moves and after a fatal stop, and O5, O7, O9, O10, O11, O13 and O15. -/

namespace Sys2Proof.Machine

/-! ### A command that ends in an error (R192, R193) -/

theorem sameData_complete (s : State) (code : Byte) (v : Word32) : SameData s (s.complete code v) :=
  ⟨fun _ => rfl, fun _ => rfl, fun _ _ => rfl, rfl, rfl⟩

theorem sameRest_complete (s : State) (code : Byte) (v : Word32) : SameRest s (s.complete code v) :=
  ⟨rfl, rfl, rfl, rfl, rfl⟩

/-- Settles O15, by cases on how the command ends: with a check's error and no effect, or without one after an effect
that leaves the status alone. -/
theorem erroringCommandHasNoOtherEffect : Obligations.ErroringCommandHasNoOtherEffect := by
  intro i s t h
  rcases exec_ends i s with ⟨err, v, he⟩ | ⟨u, he, hq⟩
  · cases h.symm.trans he
    exact ⟨fun _ => ⟨sameData_complete .., sameRest_complete .., by simp, rfl⟩, fun h0 => absurd h0 err.code_ne_zero⟩
  · cases h.symm.trans he
    have hok := succeeded_complete hq.status
    exact ⟨fun hne => absurd hok.errcode hne, fun _ => ⟨hok.errinfo, hok.fatal, hok.esticky⟩⟩

/-! ### The host's list alone -/

theorem sameData_withHost (s : State) (moves : List HostAction) : SameData s (s.withHost moves) :=
  ⟨fun _ => rfl, fun _ => rfl, fun _ _ => rfl, rfl, rfl⟩

theorem sameStatus_withHost (s : State) (moves : List HostAction) : SameStatus s (s.withHost moves) :=
  ⟨rfl, rfl, rfl, rfl, rfl⟩

/-! ### The step after a fatal stop (R57, R194) -/

/-- What a step that is no reset can be after a fatal stop: the host goes on to its next move, and at most that
move was a write to a slot. -/
theorem step_cases_of_stopped {s t : State} (hready : s.ready = true) (hfatal : s.fatal = true)
    (hreset : ∀ rest, s.host ≠ .port .reset :: rest) (h : step s = .next t) :
    (∃ rest, t = s.withHost rest) ∨
      ∃ b q rest, s.host = .port (.writeBuf b q) :: rest ∧ t = (s.withHost rest).setBuf b q := by
  rcases step_cases h with ⟨hr, -⟩ | ⟨-, -, hf, -⟩ | ⟨w, rest, -, -, -, rfl⟩ |
    ⟨w, rest, why, -, -, hf, -⟩ | ⟨w, rest, i, -, -, hf, -⟩ | ⟨act, rest, hhost, he⟩
  · exact absurd (hready.symm.trans hr) nofun
  · exact absurd (hfatal.symm.trans hf) nofun
  · exact .inl ⟨rest, rfl⟩
  · exact absurd (hfatal.symm.trans hf) nofun
  · exact absurd (hfatal.symm.trans hf) nofun
  · rw [State.afterChoice_of_ready hready] at he
    rcases State.portAction_cases he with ⟨b, q, rfl, -, rfl⟩ | ⟨-, rfl⟩ | ⟨rfl, -⟩
    · exact .inr ⟨b, q, rest, hhost, rfl⟩
    · exact .inl ⟨rest, rfl⟩
    · exact absurd hhost (hreset rest)

/-- Settles O13: neither the host's list nor a write to a slot is a register, a table, scratch or status. -/
theorem fatalStopFreezesTheEngine : Obligations.FatalStopFreezesTheEngine := by
  intro s t hready hfatal hreset h
  rcases step_cases_of_stopped hready hfatal hreset h with ⟨rest, rfl⟩ | ⟨b, q, rest, hhost, rfl⟩
  · exact ⟨sameStatus_withHost .., fun _ => rfl, rfl, rfl, rfl, fun _ => sameData_withHost ..⟩
  · exact ⟨⟨rfl, rfl, rfl, rfl, rfl⟩, fun _ => rfl, rfl, rfl, rfl, fun hwrite => absurd hhost (hwrite b q rest)⟩

/-! ### An issued word: run, held or refused (R192, R194, R222) -/

section
variable {s : State} {w : CmdWord} {rest : List HostAction}

theorem State.accept_of_decode_ok {i : Instr} (h : decode w = .ok i) : s.accept w = exec i s := by
  rw [State.accept, h]

/-- While a word waits no choice between two agents is open: the engine and the initialiser never both move (log 7). -/
theorem State.choiceOpen_of_issue (hhost : s.host = .issue w :: rest) : s.choiceOpen = false := by
  simp [State.choiceOpen, hhost]

/-- A word issued before the tables are built waits for the initialiser's step (R192, R222). -/
theorem step_of_held_issue (hhost : s.host = .issue w :: rest) (hready : s.ready = false) :
    step s = .next s.initialise := by
  have hopen := State.choiceOpen_of_issue hhost
  have hchoice : s.afterChoice = s := by simp [State.afterChoice, hopen]
  rw [step_of_initialiserMoves (by simp [State.initialiserMoves, hready, hopen]), hchoice]

/-- An accepted word has a next state: a command ends with or without an error, and an illegal word is reported (R192,
R198). -/
theorem State.accept_next (s : State) (w : CmdWord) : ∃ t, s.accept w = .next t := by
  cases hd : decode w with
  | error why => exact ⟨_, State.accept_of_decode_error hd⟩
  | ok i =>
    rw [State.accept_of_decode_ok hd]
    rcases exec_ends i s with ⟨err, v, he⟩ | ⟨u, he, -⟩
    · exact ⟨_, he⟩
    · exact ⟨_, he⟩

end

/-- Settles O5: the step accepts the word, and the word decodes. -/
theorem stepRunsTheDecodedCommand : Obligations.StepRunsTheDecodedCommand := by
  intro s w rest i hhost hready hfatal hd
  rw [step_of_issue hhost hready hfatal, State.accept_of_decode_ok hd]

/-- Settles O7: the step is the initialiser's, and no choice was open. -/
theorem heldWordWaitsForTheTables : Obligations.HeldWordWaitsForTheTables := fun s _ _ hhost hready =>
  ⟨s.initialise, step_of_held_issue hhost hready, rfl, rfl, ⟨fun _ => rfl, fun _ => rfl, fun _ _ => rfl, rfl, rfl⟩,
    ⟨rfl, rfl, rfl, rfl, rfl⟩, rfl, rfl, rfl⟩

/-- Settles O9: the step takes the word off the host's list and is nothing else. -/
theorem refusedWordChangesNothing : Obligations.RefusedWordChangesNothing := fun s _ rest hhost hready hfatal =>
  ⟨s.withHost rest, step_of_refused_issue hhost hready hfatal, sameData_withHost .., sameStatus_withHost .., rfl, rfl,
    rfl, rfl, rfl⟩

/-- Settles O11, by cases on what the engine does with the word: it holds it, refuses it, or accepts it. -/
theorem everyIssuedWordHasANextState : Obligations.EveryIssuedWordHasANextState := by
  intro s w rest hhost
  cases hready : s.ready with
  | false => exact ⟨_, step_of_held_issue hhost hready⟩
  | true =>
    cases hfatal : s.fatal with
    | true => exact ⟨_, step_of_refused_issue hhost hready hfatal⟩
    | false =>
      obtain ⟨t, ht⟩ := (s.withHost rest).accept_next w
      exact ⟨t, (step_of_issue hhost hready hfatal).trans ht⟩

/-! ### The end of the host's moves (R198, R203) -/

/-- At a ready engine only `FATAL` decides what the end of the host's moves is (log 10). -/
theorem step_of_no_host_move {s : State} (hhost : s.host = []) (hready : s.ready = true) :
    step s = if s.fatal then .fault .fatalStop else .next s := by
  simp [step, State.move, State.initialiserMoves_of_ready hready, hhost]

/-- Settles O10, by the two values of `FATAL`. -/
theorem endOfTheHostsMoves : Obligations.EndOfTheHostsMoves := fun s hhost hready =>
  ⟨fun hfatal => by rw [step_of_no_host_move hhost hready, hfatal, if_pos rfl],
    fun hfatal => by rw [step_of_no_host_move hhost hready, hfatal, if_neg Bool.false_ne_true]⟩

end Sys2Proof.Machine
end

section
/-! SUPPORT. Reset and hazards (R220, R222): the second step of a held word and what `HostReset` wipes, and O8 and O52. -/

namespace Sys2Proof.Machine

/-! ### The held word (R222) -/

/-- A run of one step is the step, whether it ends in a next state or stops. -/
theorem run_one (M : Host.Core) (s : M.State) : M.run 1 s = M.step s := by
  simp only [Host.Core.run]
  cases M.step s <;> rfl

/-- Settles O8: the first step is the initialiser's, which leaves the word waiting at a ready engine; the second
runs it by O5. -/
theorem heldWordRunsInTheSecondStep : Obligations.HeldWordRunsInTheSecondStep := by
  intro s w rest i hhost hready hfatal hd
  have hfirst : Sys2Proof.core.run 2 s = Sys2Proof.core.run 1 s.initialise :=
    run_succ_of_step (step_of_held_issue hhost hready) 1
  have hsecond : step s.initialise = exec i (s.initialise.withHost rest) :=
    stepRunsTheDecodedCommand s.initialise w rest i hhost rfl hfatal hd
  exact hfirst.trans ((run_one _ _).trans hsecond)

/-! ### `HostReset` (R35, R220) -/

@[simp] theorem State.e_hostReset (s : State) (r : Reg) : s.hostReset.e r = 0 := by
  rw [State.e, State.hostReset_regs]
  exact State.e_reset r

@[simp] theorem State.len_hostReset (s : State) (b : Slot) : s.hostReset.len b = 0 := by
  rw [State.len, State.hostReset_lens]
  exact State.len_reset b

@[simp] theorem State.byte_hostReset (s : State) (b : Slot) (i : Nat) : s.hostReset.byte b i = 0 := by
  rw [State.byte, State.hostReset_mem]
  exact State.byte_reset b i

@[simp] theorem State.statusWord_hostReset (s : State) : s.hostReset.statusWord = 0 := by
  simp [State.statusWord, bitAt]

/-- Settles O52: the step is the host's, and its action leaves the reset values of R35 but for `MAXLEN` and the host's
list, which neither the choice nor the action touches. -/
theorem hostResetWipesTheEngine : Obligations.HostResetWipesTheEngine := by
  intro s rest hhost hi
  have hstep : step s = .next (s.afterChoice.withHost rest).hostReset := step_of_port hhost hi
  refine ⟨_, hstep, State.e_hostReset _, State.len_hostReset _, State.byte_hostReset _, State.hostReset_xs _,
    State.hostReset_ys _, State.statusWord_hostReset _, State.hostReset_errinfo _, State.hostReset_pc _, ?_, ?_⟩
  · rw [State.hostReset_maxLen, State.withHost_maxLen, State.afterChoice_maxLen]
  · rw [State.hostReset_host, State.withHost_host]

end Sys2Proof.Machine
end
